-- ==== Sys2Proof/Word.lean ====
section
/-! DEFINITION. The word of the machine: the one value type of registers, memory cells, addresses and
instruction words (spec/00_scope.md R5, R6). -/

namespace Sys2Proof

/-- A Word is a 16-bit unsigned integer, bit 15 the most significant (R6).  Where a rule speaks of a signed
value it is the two's-complement reading, `BitVec.toInt` (R7). -/
abbrev Word := BitVec 16

end Sys2Proof
end

