-- ==== Sys2Proof/Config.lean ====
section
/-! DEFINITION. The parameters of the hardware (spec/00_scope.md R5) that are not the width of a type, and the
values this model gives to the ones the spec leaves OPEN (spec/92_eei_decisions.md D9, D10). -/

namespace Sys2Proof.Config

open Sys2Proof

/-- MEM_WORDS: the memory has exactly 65536 words (R5, R30). -/
def memWords : Nat := 65536

/-- RESET_PC (R5, R24, R180; the spec's decision D8). -/
def resetPc : Word := 0x0000

/-- The parameters RESET_GPR[1..6], RESET_C, RESET_V, RESET_Z, RESET_N and RESET_SC, which the spec leaves OPEN
(R5, R24, D9).  A reset event takes one of these as an argument, so that a claim can be stated for every value. -/
structure ResetValues where
  r1 : Word
  r2 : Word
  r3 : Word
  r4 : Word
  r5 : Word
  r6 : Word
  c : Bool
  v : Bool
  z : Bool
  n : Bool
  sc : Bool
deriving DecidableEq, Repr

/-- The one choice of the OPEN reset values that `State.reset` is written with: all zero.
DESIGN CHOICE, unsafe (notes/assumptions/1.md): the spec states no value and says a model must not assume zero. -/
def chosenResetValues : ResetValues :=
  { r1 := 0, r2 := 0, r3 := 0, r4 := 0, r5 := 0, r6 := 0,
    c := false, v := false, z := false, n := false, sc := false }

/-- What a memory word that the memory's list does not name reads as.
DESIGN CHOICE, unsafe (notes/assumptions/2.md): INIT_MEM is OPEN (R24, D10). -/
def unlistedWord : Word := 0x0000

end Sys2Proof.Config
end

