-- ==== Sys2Proof/Machine/State.lean ====
section
/-! DEFINITION. The state of the machine as plain data (spec/10_state.md: "the complete state of the machine"), the
reasons a step could stop, and the state after reset. -/

namespace Sys2Proof.Machine

open Sys2Proof

/-- The reasons a step can fault: none.  "No operation in this core can fail at runtime; there are no recoverable or
fatal error paths within it" (spec/60_exceptions.md R160). -/
inductive Fault where
deriving DecidableEq, Repr

/-- The reasons a step can be refused. -/
inductive Refusal where
  /-- Raised by an arm of `exec` whose instruction has no meaning yet.  No arm of this model raises it.  Safe: the
  model stops where the hardware goes on. -/
  | notModelled (mnemonic : String)
deriving DecidableEq, Repr

/-- The four condition flags Carry, Overflow, Zero, Negative (R16). -/
structure Flags where
  c : Bool
  v : Bool
  z : Bool
  n : Bool
deriving DecidableEq, Repr

/-- One listed word of memory: its address and its value.  The addressable unit is the 16-bit word and there is no
byte address (spec/20_memory.md R32), so a cell is a word: DESIGN CHOICE, safe
(notes/assumptions/3.md). -/
abbrev Cell := Nat × Word

/-- The memory of 65536 words (R21, R30): the words that differ from `Config.unlistedWord`, addresses strictly rising. -/
abbrev Memory := List Cell

/-- The canonical form of a memory: addresses strictly rise, each is below 65536, and no listed word equals what an
unlisted address reads as.  Equal memories are then equal lists. -/
abbrev Memory.wf (m : Memory) : Prop :=
  m.Pairwise (fun a b => a.1 < b.1) ∧ ∀ c ∈ m, c.1 < Config.memWords ∧ c.2 ≠ Config.unlistedWord

/-- The whole state (R22: "there is no other state").  Slot 0 holds nothing and slot 7 is `pc` (R11, R13). -/
structure State where
  r1 : Word
  r2 : Word
  r3 : Word
  r4 : Word
  r5 : Word
  r6 : Word
  pc : Word
  flags : Flags
  /-- SC, the shifter-carry pseudo-flag (R20). -/
  sc : Bool
  mem : Memory
deriving DecidableEq, Repr

/-- The state a run is launched from: reset applied (R180) with the OPEN values `o` (R24) to a machine whose memory
the host has filled (R182). -/
def State.launch (o : Config.ResetValues) (m : Memory) : State :=
  { r1 := o.r1, r2 := o.r2, r3 := o.r3, r4 := o.r4, r5 := o.r5, r6 := o.r6,
    pc := Config.resetPc,
    flags := { c := o.c, v := o.v, z := o.z, n := o.n },
    sc := o.sc,
    mem := m }

/-- The state right after reset: the pc is 0x0000 (R180); R1 to R6, the flags and SC hold the values this model chose
(DESIGN CHOICE, notes/assumptions/1.md); memory lists nothing (DESIGN CHOICE, notes/assumptions/2.md). -/
def State.reset : State := State.launch Config.chosenResetValues []

end Sys2Proof.Machine
end

