-- ==== Sys2Proof/Syntax.lean ====
section
/-! DEFINITION. The instructions as syntax: one constructor of `Instr` for each of the 32 rows of
spec/opcode_table.json, the fields each holds (spec/30_encoding.md R54 to R60), and the pseudo-instructions of R64. -/

namespace Sys2Proof

/-- The eight slots of the register file (spec/10_state.md R10); `r0` is wired to zero (R11, R12) and `r7` is the
program counter (R13). -/
inductive Reg where
  | r0 | r1 | r2 | r3 | r4 | r5 | r6 | r7
deriving DecidableEq, Repr

/-- The eight operations of the opcode field (spec/30_encoding.md R52). -/
inductive Opcode where
  | add | adc | sub | sbc | and | or | loadStore | branch
deriving DecidableEq, Repr

/-- The four behaviours of the shifter: NONE, ARITHMETIC-RIGHT, ROTATE-RIGHT, ROTATE-RIGHT-THROUGH-CARRY (R59). -/
inductive ShiftCode where
  | none | asr | ror | rrc
deriving DecidableEq, Repr

/-- The sixteen branch conditions (spec/44_branch.md R121 to R136), in the order of their numbers. -/
inductive Cond where
  | al | nv | hi | ls | cc | cs | ne | eq | vc | vs | pl | mi | ge | lt | gt | le
deriving DecidableEq, Repr

/-- A decoded instruction (R60).  `…Reg` is type 1 (two registers, operand A shifted), `…Imm` is type 2 (register and
immediate), `b…` is type 3 (branch).  `imm` and `off` are the sign-extended Words that R60's decode yields; which of
them an encoding can hold is WellFormed's business.  For LD and ST bit 11 chose the constructor, so it is no field. -/
inductive Instr where
  | addReg (ldcc : Bool) (dst srcA srcB : Reg) (sh : ShiftCode)
  | addImm (ldcc : Bool) (dst srcA : Reg) (imm : Word)
  | adcReg (ldcc : Bool) (dst srcA srcB : Reg) (sh : ShiftCode)
  | adcImm (ldcc : Bool) (dst srcA : Reg) (imm : Word)
  | subReg (ldcc : Bool) (dst srcA srcB : Reg) (sh : ShiftCode)
  | subImm (ldcc : Bool) (dst srcA : Reg) (imm : Word)
  | sbcReg (ldcc : Bool) (dst srcA srcB : Reg) (sh : ShiftCode)
  | sbcImm (ldcc : Bool) (dst srcA : Reg) (imm : Word)
  | andReg (ldcc : Bool) (dst srcA srcB : Reg) (sh : ShiftCode)
  | andImm (ldcc : Bool) (dst srcA : Reg) (imm : Word)
  | orReg (ldcc : Bool) (dst srcA srcB : Reg) (sh : ShiftCode)
  | orImm (ldcc : Bool) (dst srcA : Reg) (imm : Word)
  | ldReg (dst srcA srcB : Reg) (sh : ShiftCode)
  | ldImm (dst srcA : Reg) (imm : Word)
  | stReg (dst srcA srcB : Reg) (sh : ShiftCode)
  | stImm (dst srcA : Reg) (imm : Word)
  | bal (off : Word)
  | bnv (off : Word)
  | bhi (off : Word)
  | bls (off : Word)
  | bcc (off : Word)
  | bcs (off : Word)
  | bne (off : Word)
  | beq (off : Word)
  | bvc (off : Word)
  | bvs (off : Word)
  | bpl (off : Word)
  | bmi (off : Word)
  | bge (off : Word)
  | blt (off : Word)
  | bgt (off : Word)
  | ble (off : Word)
deriving DecidableEq, Repr

/-! The pseudo-instructions of R64, each a fixed expansion into one instruction; none adds behaviour. -/

/-- `NOP`. -/
def Instr.nop : Instr := .addReg false .r0 .r0 .r0 .none
/-- `MOV Rd, Ra`. -/
def Instr.movReg (rd ra : Reg) : Instr := .orReg false rd ra .r0 .none
/-- `MOV Rd, #imm`. -/
def Instr.movImm (rd : Reg) (imm : Word) : Instr := .addImm false rd .r0 imm
/-- `ASR Rd, Ra`, `ROR Rd, Ra`, `RRC Rd, Ra`, with the S suffix when `ldcc` is set. -/
def Instr.shiftReg (ldcc : Bool) (rd ra : Reg) (sh : ShiftCode) : Instr := .orReg ldcc rd ra .r0 sh
/-- `CMP Ra, Rb`. -/
def Instr.cmpReg (ra rb : Reg) : Instr := .subReg true .r0 ra rb .none
/-- `CMP Ra, #imm`. -/
def Instr.cmpImm (ra : Reg) (imm : Word) : Instr := .subImm true .r0 ra imm
/-- `TST Ra, Rb`. -/
def Instr.tstReg (ra rb : Reg) : Instr := .andReg true .r0 ra rb .none
/-- `JMP Ra`. -/
def Instr.jmpReg (ra : Reg) : Instr := .orReg false .r7 ra .r0 .none
/-- `HALT`, the branch-always to itself of spec/45_step.md R149. -/
def Instr.halt : Instr := .bal 0xFFFF

end Sys2Proof
end

