-- ==== Sys2Proof/Machine/Ops.lean ====
section
/-! DEFINITION. The named operations by which every meaning touches the state (spec/00_scope.md R8): registers, pc,
flags, SC and memory, and what the host does between steps (reset, inspection, loading).  The hardware takes no
exception and returns from none (spec/60_exceptions.md R160, R163, R164), so there is no such operation. -/

namespace Sys2Proof.Machine

open Sys2Proof

/-! ### Registers (R11, R12, R13) -/

/-- `x[i]`: slot 0 reads as zero, slot 7 is the pc. -/
def State.readReg (s : State) : Reg → Word
  | .r0 => 0
  | .r1 => s.r1
  | .r2 => s.r2
  | .r3 => s.r3
  | .r4 => s.r4
  | .r5 => s.r5
  | .r6 => s.r6
  | .r7 => s.pc

/-- `x[i] <- v`: a write to slot 0 is discarded, a write to slot 7 sets the pc. -/
def State.writeReg (r : Reg) (v : Word) (s : State) : State :=
  match r with
  | .r0 => s
  | .r1 => { s with r1 := v }
  | .r2 => { s with r2 := v }
  | .r3 => { s with r3 := v }
  | .r4 => { s with r4 := v }
  | .r5 => { s with r5 := v }
  | .r6 => { s with r6 := v }
  | .r7 => { s with pc := v }

/-- `pc <- v` (R8). -/
def State.setPc (v : Word) (s : State) : State := { s with pc := v }

/-- The increment of every step, `pc <- (pc + 1) mod 65536` (spec/45_step.md R145). -/
def State.advancePc (s : State) : State := s.setPc (s.pc + 1)

/-! ### Flags and SC (R16, R17, R20) -/

/-- The four condition flags are written together when `ldcc` is set and not at all otherwise (R17, R90). -/
def State.updateFlags (ldcc : Bool) (f : Flags) (s : State) : State :=
  { s with flags := bif ldcc then f else s.flags }

/-- `SC <- b`. -/
def State.setSc (b : Bool) (s : State) : State := { s with sc := b }

/-- CC, the packed condition code: bit 0 = C, bit 1 = V, bit 2 = Z, bit 3 = N (R18; the spec's decision D5:
DEDUCED, unsafe for the inspection view alone, notes/assumptions/8.md). -/
def State.cc (s : State) : BitVec 4 :=
  BitVec.ofBool s.flags.n ++ BitVec.ofBool s.flags.z ++ BitVec.ofBool s.flags.v ++ BitVec.ofBool s.flags.c

/-! ### Memory (spec/20_memory.md R30, R35) -/

/-- The word a list of cells gives an address, the unlisted word if none names it. -/
def Memory.readAt : Memory → Nat → Word
  | [], _ => Config.unlistedWord
  | (k, v) :: m, a => if k = a then v else Memory.readAt m a

/-- The list without any cell of address `a`. -/
def Memory.erase (m : Memory) (a : Nat) : Memory := m.filter (fun c => c.1 != a)

/-- The list with the cell `(a, v)` put before the first larger address. -/
def Memory.insert (a : Nat) (v : Word) : Memory → Memory
  | [] => [(a, v)]
  | c :: m => if c.1 < a then c :: Memory.insert a v m else (a, v) :: c :: m

/-- The list in which address `a` holds `v`, in canonical form. -/
def Memory.writeAt (m : Memory) (a : Nat) (v : Word) : Memory :=
  if v = Config.unlistedWord then m.erase a else Memory.insert a v (m.erase a)

/-- `MemRead(a, 1)` on a memory. -/
def Memory.read (m : Memory) (a : Word) : Word := m.readAt a.toNat

/-- `MemWrite(a, 1, v)` on a memory. -/
def Memory.write (m : Memory) (a v : Word) : Memory := m.writeAt a.toNat v

/-- `MemRead(a, 1)`: total, changes nothing (R35). -/
def State.memRead (s : State) (a : Word) : Word := s.mem.read a

/-- `MemWrite(a, 1, v)`: total, changes that one cell and no register (R35). -/
def State.memWrite (a v : Word) (s : State) : State := { s with mem := s.mem.write a v }

/-- The fetch of a step, `MemRead(pc, 1)` (R145). -/
def State.fetchWord (s : State) : Word := s.memRead s.pc

/-! ### What the host does between steps -/

/-- The memory whose words from address `a` on are the given ones, the rest unlisted. -/
def Memory.ofWordsFrom : Nat → List Word → Memory
  | _, [] => []
  | a, w :: ws => Memory.writeAt (Memory.ofWordsFrom (a + 1) ws) a w

/-- The memory a loaded image describes: line k (from 0) gives Mem[k] (spec/70_reset_and_hazards.md R183); words
past the 65536th are dropped (DESIGN CHOICE, unsafe for such an image: notes/assumptions/10.md). -/
def Memory.ofWords (ws : List Word) : Memory := Memory.ofWordsFrom 0 (ws.take Config.memWords)

/-- The reset event, applied between steps (R180, R181): the pc becomes 0x0000, R1 to R6, C, V, Z, N and SC take the
unspecified values `o`, and memory is not touched. -/
def State.applyReset (o : Config.ResetValues) (s : State) : State := State.launch o s.mem

/-- The values a reset event leaves when it changes nothing it need not change, the exact variant R181 allows. -/
def State.keptValues (s : State) : Config.ResetValues :=
  { r1 := s.r1, r2 := s.r2, r3 := s.r3, r4 := s.r4, r5 := s.r5, r6 := s.r6,
    c := s.flags.c, v := s.flags.v, z := s.flags.z, n := s.flags.n, sc := s.sc }

/-- `dbg_reg`: `x[dbg_idx]` (R23, R148). -/
def State.dbgReg (s : State) (idx : Reg) : Word := s.readReg idx
/-- `dbg_cc`: the packed condition code (R18, R148). -/
def State.dbgCc (s : State) : BitVec 4 := s.cc
/-- `dbg_sc`: SC (R148). -/
def State.dbgSc (s : State) : Bool := s.sc

end Sys2Proof.Machine
end

