-- ==== Sys2Proof/Machine/Flags.lean ====
section
/-! DEFINITION. The adder with its flag outputs (spec/41_arithmetic.md R85), the flag values the arithmetic and logic
units write (R90, R102), and the branch-condition evaluator (spec/44_branch.md R121 to R137). -/

namespace Sys2Proof.Machine

open Sys2Proof

/-- The outputs of the adder (R85). -/
structure AdderOut where
  sum : Word
  carryOut : Bool
  overflow : Bool
  negative : Bool
  zero : Bool
deriving DecidableEq, Repr

/-- `total = a + b + carry_in`, unbounded (R85). -/
def adderTotal (a b : Word) (cin : Bool) : Nat := a.toNat + b.toNat + cin.toNat

/-- `sum = total mod 65536` (R85). -/
def adderSum (a b : Word) (cin : Bool) : Word := BitVec.ofNat 16 (adderTotal a b cin)

/-- `add(a, b, carry_in)` (R85): combinational, `carryOut` is the raw carry. -/
def adder (a b : Word) (cin : Bool) : AdderOut :=
  { sum := adderSum a b cin
    carryOut := decide (65536 ≤ adderTotal a b cin)
    overflow := ((a ^^^ adderSum a b cin) &&& (b ^^^ adderSum a b cin)).getLsbD 15
    negative := (adderSum a b cin).getLsbD 15
    zero := adderSum a b cin == 0 }

/-- The flags an arithmetic instruction writes: `C <- carry_out XOR invert`, V, Z and N as the adder gives them (R90). -/
def adderFlags (r : AdderOut) (invert : Bool) : Flags :=
  { c := r.carryOut ^^ invert, v := r.overflow, z := r.zero, n := r.negative }

/-- The flags a logic instruction writes for the result `res` and the carry R102 names: V is 0. -/
def logicFlags (res : Word) (carry : Bool) : Flags :=
  { c := carry, v := false, z := res == 0, n := res.getLsbD 15 }

/-- `taken(cond, C, V, Z, N)` (R121 to R137), grouped as the parentheses of the source's table show. -/
def taken (cond : Cond) (f : Flags) : Bool :=
  match cond with
  | .al => true
  | .nv => false
  | .hi => !(f.c || f.z)
  | .ls => f.c || f.z
  | .cc => !f.c
  | .cs => f.c
  | .ne => !f.z
  | .eq => f.z
  | .vc => !f.v
  | .vs => f.v
  | .pl => !f.n
  | .mi => f.n
  | .ge => !(f.n ^^ f.v)
  | .lt => f.n ^^ f.v
  | .gt => !((f.n ^^ f.v) || f.z)
  | .le => (f.n ^^ f.v) || f.z

end Sys2Proof.Machine
end

