-- ==== Sys2Proof/Machine/Operands.lean ====
section
/-! DEFINITION. Operand fetch and the shifter (spec/40_shifter_operands.md R70 to R79), and the effective address of
the load/store unit (spec/43_load_store.md R110).  Every operand is read from the state after the pc's increment and
before the instruction writes anything (R79); the carry seen is the one the previous step left (R78;
the spec's decision D13: DEDUCED, unsafe, notes/assumptions/11.md).  A type-2 instruction or a branch runs no shifter
and leaves SC (R77; the spec's decision D6: DEDUCED, unsafe for SC alone, notes/assumptions/7.md). -/

namespace Sys2Proof.Machine

open Sys2Proof

/-- The shifter's output word: `v` unchanged, or moved right by one bit with the bit that R73, R74 or R75 gives put in
at bit 15. -/
def shiftOut (v : Word) (sh : ShiftCode) (c : Bool) : Word :=
  match sh with
  | .none => v
  | .asr => BitVec.ofBool (v.getLsbD 15) ++ v.extractLsb' 1 15
  | .ror => BitVec.ofBool (v.getLsbD 0) ++ v.extractLsb' 1 15
  | .rrc => BitVec.ofBool c ++ v.extractLsb' 1 15

/-- The shifter's carry: 0 when nothing is shifted, else the bit shifted out (R72 to R75). -/
def shiftCarry (v : Word) (sh : ShiftCode) : Bool :=
  match sh with
  | .none => false
  | .asr => v.getLsbD 0
  | .ror => v.getLsbD 0
  | .rrc => v.getLsbD 0

/-- Operand A of a type-1 instruction: register srcA through the shifter (R70). -/
def operandAReg (srcA : Reg) (sh : ShiftCode) (s : State) : Word :=
  shiftOut (s.readReg srcA) sh s.flags.c

/-- Operand B of a type-1 instruction (R70): never shifted. -/
def operandBReg (srcB : Reg) (s : State) : Word := s.readReg srcB

/-- Operand A of a type-2 instruction (R70): the register, not shifted (R77). -/
def operandAImm (srcA : Reg) (s : State) : Word := s.readReg srcA

/-- The SC output of a type-1 instruction's shifter. -/
def shifterCarryReg (srcA : Reg) (sh : ShiftCode) (s : State) : Bool := shiftCarry (s.readReg srcA) sh

/-- The shifter's write of SC, on every type-1 instruction whatever ldcc is (R76). -/
def runShifter (srcA : Reg) (sh : ShiftCode) (s : State) : State := s.setSc (shifterCarryReg srcA sh s)

/-- `EA = (opA + opB) mod 65536` for the type-1 forms of LD and ST (R110). -/
def effectiveAddressReg (srcA srcB : Reg) (sh : ShiftCode) (s : State) : Word :=
  operandAReg srcA sh s + operandBReg srcB s

/-- `EA = (opA + opB) mod 65536` for the type-2 forms of LD and ST (R110). -/
def effectiveAddressImm (srcA : Reg) (imm : Word) (s : State) : Word := operandAImm srcA s + imm

end Sys2Proof.Machine
end

