-- ==== Sys2Proof/Machine/Arith.lean ====
section
/-! DEFINITION. The arithmetic instructions ADD, ADC, SUB, SBC (spec/41_arithmetic.md R86 to R91). -/

namespace Sys2Proof.Machine

open Sys2Proof

/-- The end of every arithmetic instruction: the flags when ldcc is set (R90), then the destination always (R91). -/
def finishArith (ldcc : Bool) (dst : Reg) (r : AdderOut) (invert : Bool) (s : State) : State :=
  (s.updateFlags ldcc (adderFlags r invert)).writeReg dst r.sum

/-- ADD, type 1 (R86). -/
def execAddReg (ldcc : Bool) (dst srcA srcB : Reg) (sh : ShiftCode) (s : State) : Host.Outcome State Fault Refusal :=
  .next (finishArith ldcc dst (adder (operandAReg srcA sh s) (operandBReg srcB s) false) false (runShifter srcA sh s))

/-- ADD, type 2 (R86). -/
def execAddImm (ldcc : Bool) (dst srcA : Reg) (imm : Word) (s : State) : Host.Outcome State Fault Refusal :=
  .next (finishArith ldcc dst (adder (operandAImm srcA s) imm false) false s)

/-- ADC, type 1 (R87). -/
def execAdcReg (ldcc : Bool) (dst srcA srcB : Reg) (sh : ShiftCode) (s : State) : Host.Outcome State Fault Refusal :=
  .next (finishArith ldcc dst (adder (operandAReg srcA sh s) (operandBReg srcB s) s.flags.c) false
    (runShifter srcA sh s))

/-- ADC, type 2 (R87). -/
def execAdcImm (ldcc : Bool) (dst srcA : Reg) (imm : Word) (s : State) : Host.Outcome State Fault Refusal :=
  .next (finishArith ldcc dst (adder (operandAImm srcA s) imm s.flags.c) false s)

/-- SUB, type 1 (R88): the complemented operand B, carry-in 1, the raw carry inverted. -/
def execSubReg (ldcc : Bool) (dst srcA srcB : Reg) (sh : ShiftCode) (s : State) : Host.Outcome State Fault Refusal :=
  .next (finishArith ldcc dst (adder (operandAReg srcA sh s) (~~~(operandBReg srcB s)) true) true
    (runShifter srcA sh s))

/-- SUB, type 2 (R88). -/
def execSubImm (ldcc : Bool) (dst srcA : Reg) (imm : Word) (s : State) : Host.Outcome State Fault Refusal :=
  .next (finishArith ldcc dst (adder (operandAImm srcA s) (~~~imm) true) true s)

/-- SBC, type 1 (R89): as SUB with the one-bit complement of C as carry-in (the spec's decision D7). -/
def execSbcReg (ldcc : Bool) (dst srcA srcB : Reg) (sh : ShiftCode) (s : State) : Host.Outcome State Fault Refusal :=
  .next (finishArith ldcc dst (adder (operandAReg srcA sh s) (~~~(operandBReg srcB s)) (!s.flags.c)) true
    (runShifter srcA sh s))

/-- SBC, type 2 (R89). -/
def execSbcImm (ldcc : Bool) (dst srcA : Reg) (imm : Word) (s : State) : Host.Outcome State Fault Refusal :=
  .next (finishArith ldcc dst (adder (operandAImm srcA s) (~~~imm) (!s.flags.c)) true s)

end Sys2Proof.Machine
end

