-- ==== Sys2Proof/Machine/Branch.lean ====
section
/-! DEFINITION. The branch and its sixteen conditions (spec/44_branch.md R120 to R136).  The pc a branch sees is the
one the step has incremented (R120). -/

namespace Sys2Proof.Machine

open Sys2Proof

/-- `pc <- (pc + off) mod 65536` when the condition holds, else nothing; only the pc is written (R120). -/
def branchIf (cond : Cond) (off : Word) (s : State) : State :=
  bif taken cond s.flags then s.setPc (s.pc + off) else s

/-- BAL, "always" (R121). -/
def execBal (off : Word) (s : State) : Host.Outcome State Fault Refusal := .next (branchIf .al off s)

/-- BNV, "never" (R122). -/
def execBnv (off : Word) (s : State) : Host.Outcome State Fault Refusal := .next (branchIf .nv off s)

/-- BHI, "higher" (R123). -/
def execBhi (off : Word) (s : State) : Host.Outcome State Fault Refusal := .next (branchIf .hi off s)

/-- BLS, "lower-or-same" (R124). -/
def execBls (off : Word) (s : State) : Host.Outcome State Fault Refusal := .next (branchIf .ls off s)

/-- BCC, "carry-clear" (R125). -/
def execBcc (off : Word) (s : State) : Host.Outcome State Fault Refusal := .next (branchIf .cc off s)

/-- BCS, "carry-set" (R126). -/
def execBcs (off : Word) (s : State) : Host.Outcome State Fault Refusal := .next (branchIf .cs off s)

/-- BNE, "not-equal" (R127). -/
def execBne (off : Word) (s : State) : Host.Outcome State Fault Refusal := .next (branchIf .ne off s)

/-- BEQ, "equal" (R128). -/
def execBeq (off : Word) (s : State) : Host.Outcome State Fault Refusal := .next (branchIf .eq off s)

/-- BVC, "overflow-clear" (R129). -/
def execBvc (off : Word) (s : State) : Host.Outcome State Fault Refusal := .next (branchIf .vc off s)

/-- BVS, "overflow-set" (R130). -/
def execBvs (off : Word) (s : State) : Host.Outcome State Fault Refusal := .next (branchIf .vs off s)

/-- BPL, "plus" (R131). -/
def execBpl (off : Word) (s : State) : Host.Outcome State Fault Refusal := .next (branchIf .pl off s)

/-- BMI, "minus" (R132). -/
def execBmi (off : Word) (s : State) : Host.Outcome State Fault Refusal := .next (branchIf .mi off s)

/-- BGE, "greater-or-equal" (R133). -/
def execBge (off : Word) (s : State) : Host.Outcome State Fault Refusal := .next (branchIf .ge off s)

/-- BLT, "less-than" (R134). -/
def execBlt (off : Word) (s : State) : Host.Outcome State Fault Refusal := .next (branchIf .lt off s)

/-- BGT, "greater-than" (R135). -/
def execBgt (off : Word) (s : State) : Host.Outcome State Fault Refusal := .next (branchIf .gt off s)

/-- BLE, "less-or-equal" (R136). -/
def execBle (off : Word) (s : State) : Host.Outcome State Fault Refusal := .next (branchIf .le off s)

end Sys2Proof.Machine
end

