-- ==== Sys2Proof/Machine/LoadStore.lean ====
section
/-! DEFINITION. The load and store instructions LD, ST (spec/43_load_store.md R110 to R113).  They write no condition
flag; the type-1 forms run the shifter and so write SC (R113). -/

namespace Sys2Proof.Machine

open Sys2Proof

/-- `x[dst] <- MemRead(EA, 1)` (R111). -/
def loadFrom (ea : Word) (dst : Reg) (s : State) : State := s.writeReg dst (s.memRead ea)

/-- `MemWrite(EA, 1, x[dst])` (R112). -/
def storeTo (ea : Word) (dst : Reg) (s : State) : State := s.memWrite ea (s.readReg dst)

/-- LD, type 1 (R111). -/
def execLdReg (dst srcA srcB : Reg) (sh : ShiftCode) (s : State) : Host.Outcome State Fault Refusal :=
  .next (loadFrom (effectiveAddressReg srcA srcB sh s) dst (runShifter srcA sh s))

/-- LD, type 2 (R111). -/
def execLdImm (dst srcA : Reg) (imm : Word) (s : State) : Host.Outcome State Fault Refusal :=
  .next (loadFrom (effectiveAddressImm srcA imm s) dst s)

/-- ST, type 1 (R112). -/
def execStReg (dst srcA srcB : Reg) (sh : ShiftCode) (s : State) : Host.Outcome State Fault Refusal :=
  .next (storeTo (effectiveAddressReg srcA srcB sh s) dst (runShifter srcA sh s))

/-- ST, type 2 (R112). -/
def execStImm (dst srcA : Reg) (imm : Word) (s : State) : Host.Outcome State Fault Refusal :=
  .next (storeTo (effectiveAddressImm srcA imm s) dst s)

end Sys2Proof.Machine
end

