-- ==== Sys2Proof/Machine/Logic.lean ====
section
/-! DEFINITION. The logic instructions AND, OR (spec/42_logic.md R100 to R103). -/

namespace Sys2Proof.Machine

open Sys2Proof

/-- The end of every logic instruction: the flags when ldcc is set, with the carry that R102 names, then the
destination always (R103). -/
def finishLogic (ldcc : Bool) (dst : Reg) (res : Word) (carry : Bool) (s : State) : State :=
  (s.updateFlags ldcc (logicFlags res carry)).writeReg dst res

/-- The end of a type-1 logic instruction: its shifter has just written SC, which is the carry (R102). -/
def finishLogicReg (ldcc : Bool) (dst : Reg) (res : Word) (s : State) : State := finishLogic ldcc dst res s.sc s

/-- AND, type 1 (R100). -/
def execAndReg (ldcc : Bool) (dst srcA srcB : Reg) (sh : ShiftCode) (s : State) : Host.Outcome State Fault Refusal :=
  .next (finishLogicReg ldcc dst (operandAReg srcA sh s &&& operandBReg srcB s) (runShifter srcA sh s))

/-- AND, type 2 (R100): the carry is 0 (R102). -/
def execAndImm (ldcc : Bool) (dst srcA : Reg) (imm : Word) (s : State) : Host.Outcome State Fault Refusal :=
  .next (finishLogic ldcc dst (operandAImm srcA s &&& imm) false s)

/-- OR, type 1 (R101). -/
def execOrReg (ldcc : Bool) (dst srcA srcB : Reg) (sh : ShiftCode) (s : State) : Host.Outcome State Fault Refusal :=
  .next (finishLogicReg ldcc dst (operandAReg srcA sh s ||| operandBReg srcB s) (runShifter srcA sh s))

/-- OR, type 2 (R101): the carry is 0 (R102). -/
def execOrImm (ldcc : Bool) (dst srcA : Reg) (imm : Word) (s : State) : Host.Outcome State Fault Refusal :=
  .next (finishLogic ldcc dst (operandAImm srcA s ||| imm) false s)

end Sys2Proof.Machine
end

