-- ==== Sys2Proof/Machine/Dispatch.lean ====
section
/-! DEFINITION. Dispatch (spec/45_step.md R146): one arm per constructor of Instr. -/

namespace Sys2Proof.Machine

open Sys2Proof

def exec (i : Instr) (s : State) : Host.Outcome State Fault Refusal :=
  match i with
  | .addReg ldcc dst srcA srcB sh => Sys2Proof.Machine.execAddReg ldcc dst srcA srcB sh s
  | .addImm ldcc dst srcA imm => Sys2Proof.Machine.execAddImm ldcc dst srcA imm s
  | .adcReg ldcc dst srcA srcB sh => Sys2Proof.Machine.execAdcReg ldcc dst srcA srcB sh s
  | .adcImm ldcc dst srcA imm => Sys2Proof.Machine.execAdcImm ldcc dst srcA imm s
  | .subReg ldcc dst srcA srcB sh => Sys2Proof.Machine.execSubReg ldcc dst srcA srcB sh s
  | .subImm ldcc dst srcA imm => Sys2Proof.Machine.execSubImm ldcc dst srcA imm s
  | .sbcReg ldcc dst srcA srcB sh => Sys2Proof.Machine.execSbcReg ldcc dst srcA srcB sh s
  | .sbcImm ldcc dst srcA imm => Sys2Proof.Machine.execSbcImm ldcc dst srcA imm s
  | .andReg ldcc dst srcA srcB sh => Sys2Proof.Machine.execAndReg ldcc dst srcA srcB sh s
  | .andImm ldcc dst srcA imm => Sys2Proof.Machine.execAndImm ldcc dst srcA imm s
  | .orReg ldcc dst srcA srcB sh => Sys2Proof.Machine.execOrReg ldcc dst srcA srcB sh s
  | .orImm ldcc dst srcA imm => Sys2Proof.Machine.execOrImm ldcc dst srcA imm s
  | .ldReg dst srcA srcB sh => Sys2Proof.Machine.execLdReg dst srcA srcB sh s
  | .ldImm dst srcA imm => Sys2Proof.Machine.execLdImm dst srcA imm s
  | .stReg dst srcA srcB sh => Sys2Proof.Machine.execStReg dst srcA srcB sh s
  | .stImm dst srcA imm => Sys2Proof.Machine.execStImm dst srcA imm s
  | .bal off => Sys2Proof.Machine.execBal off s
  | .bnv off => Sys2Proof.Machine.execBnv off s
  | .bhi off => Sys2Proof.Machine.execBhi off s
  | .bls off => Sys2Proof.Machine.execBls off s
  | .bcc off => Sys2Proof.Machine.execBcc off s
  | .bcs off => Sys2Proof.Machine.execBcs off s
  | .bne off => Sys2Proof.Machine.execBne off s
  | .beq off => Sys2Proof.Machine.execBeq off s
  | .bvc off => Sys2Proof.Machine.execBvc off s
  | .bvs off => Sys2Proof.Machine.execBvs off s
  | .bpl off => Sys2Proof.Machine.execBpl off s
  | .bmi off => Sys2Proof.Machine.execBmi off s
  | .bge off => Sys2Proof.Machine.execBge off s
  | .blt off => Sys2Proof.Machine.execBlt off s
  | .bgt off => Sys2Proof.Machine.execBgt off s
  | .ble off => Sys2Proof.Machine.execBle off s

end Sys2Proof.Machine
end

