-- ==== Sys2Proof/WellFormed.lean ====
section
/-! DEFINITION. Which instructions have an encoding: the immediate of a type-2 instruction must be a sign-extended
5-bit field and the offset of a branch a sign-extended 8-bit field (spec/00_scope.md R5, spec/30_encoding.md R57,
R58).  Every other field is legal at every value of its type (R61), so there is no other check. -/

namespace Sys2Proof

/-- `imm` is a value of imm5: -16 to +15 as a signed Word (R5, R57). -/
def fitsImm5 (imm : Word) : Bool := decide (-16 ≤ imm.toInt) && decide (imm.toInt ≤ 15)

/-- `off` is a value of off8: -128 to +127 as a signed Word (R5, R58). -/
def fitsOff8 (off : Word) : Bool := decide (-128 ≤ off.toInt) && decide (off.toInt ≤ 127)

/-- The instruction has an encoding. -/
def Instr.wellFormed : Instr → Bool
  | .addReg _ _ _ _ _ => true
  | .addImm _ _ _ imm => fitsImm5 imm
  | .adcReg _ _ _ _ _ => true
  | .adcImm _ _ _ imm => fitsImm5 imm
  | .subReg _ _ _ _ _ => true
  | .subImm _ _ _ imm => fitsImm5 imm
  | .sbcReg _ _ _ _ _ => true
  | .sbcImm _ _ _ imm => fitsImm5 imm
  | .andReg _ _ _ _ _ => true
  | .andImm _ _ _ imm => fitsImm5 imm
  | .orReg _ _ _ _ _ => true
  | .orImm _ _ _ imm => fitsImm5 imm
  | .ldReg _ _ _ _ => true
  | .ldImm _ _ imm => fitsImm5 imm
  | .stReg _ _ _ _ => true
  | .stImm _ _ imm => fitsImm5 imm
  | .bal off => fitsOff8 off
  | .bnv off => fitsOff8 off
  | .bhi off => fitsOff8 off
  | .bls off => fitsOff8 off
  | .bcc off => fitsOff8 off
  | .bcs off => fitsOff8 off
  | .bne off => fitsOff8 off
  | .beq off => fitsOff8 off
  | .bvc off => fitsOff8 off
  | .bvs off => fitsOff8 off
  | .bpl off => fitsOff8 off
  | .bmi off => fitsOff8 off
  | .bge off => fitsOff8 off
  | .blt off => fitsOff8 off
  | .bgt off => fitsOff8 off
  | .ble off => fitsOff8 off

end Sys2Proof
end

