-- ==== Sys2Proof/Decode.lean ====
section
/-! DEFINITION. Decoding, total over all 65536 words (spec/30_encoding.md R60, R61), and the encoder written from the
same field tables (R52, R54 to R56, R59).  The positions and values are the spec's decisions D1 to D4: DEDUCED, unsafe
against another numbering (notes/assumptions/6.md). -/

namespace Sys2Proof

/-! ### The fields of a word (R51, R54 to R56) -/

/-- `sext_16(v, 5)` (R7, R57): bit 4 is copied into bits 15 to 5. -/
def sext5 (v : BitVec 5) : Word := v.signExtend 16

/-- `sext_16(v, 8)` (R7, R58): bit 7 is copied into bits 15 to 8. -/
def sext8 (v : BitVec 8) : Word := v.signExtend 16

/-- `w[15:13]`. -/
def opcodeBits (w : Word) : BitVec 3 := w.extractLsb' 13 3
/-- `w[12]`, the is-type-2 bit. -/
def typeBit (w : Word) : Bool := w.getLsbD 12
/-- `w[11]`, the ldcc bit of types 1 and 2. -/
def ldccBit (w : Word) : Bool := w.getLsbD 11
/-- `w[10:8]`. -/
def dstBits (w : Word) : BitVec 3 := w.extractLsb' 8 3
/-- `w[7:5]`. -/
def srcABits (w : Word) : BitVec 3 := w.extractLsb' 5 3
/-- `w[4:2]`, type 1. -/
def srcBBits (w : Word) : BitVec 3 := w.extractLsb' 2 3
/-- `w[1:0]`, type 1. -/
def shBits (w : Word) : BitVec 2 := w.extractLsb' 0 2
/-- `w[4:0]`, type 2. -/
def imm5Bits (w : Word) : BitVec 5 := w.extractLsb' 0 5
/-- `w[11:8]`, type 3. -/
def condBits (w : Word) : BitVec 4 := w.extractLsb' 8 4
/-- `w[7:0]`, type 3. -/
def off8Bits (w : Word) : BitVec 8 := w.extractLsb' 0 8

/-! ### The values of the fields -/

/-- The slot a 3-bit register field names; every index is valid (spec/10_state.md R10). -/
def Reg.ofBits (b : BitVec 3) : Reg :=
  match b.toNat with
  | 0 => .r0
  | 1 => .r1
  | 2 => .r2
  | 3 => .r3
  | 4 => .r4
  | 5 => .r5
  | 6 => .r6
  | _ => .r7

/-- The register field that names a slot. -/
def Reg.bits : Reg → BitVec 3
  | .r0 => 0
  | .r1 => 1
  | .r2 => 2
  | .r3 => 3
  | .r4 => 4
  | .r5 => 5
  | .r6 => 6
  | .r7 => 7

/-- The operation an opcode field selects (R52). -/
def Opcode.ofBits (b : BitVec 3) : Opcode :=
  match b.toNat with
  | 0 => .add
  | 1 => .adc
  | 2 => .sub
  | 3 => .sbc
  | 4 => .and
  | 5 => .or
  | 6 => .loadStore
  | _ => .branch

/-- The opcode's value (R52). -/
def Opcode.bits : Opcode → BitVec 3
  | .add => 0
  | .adc => 1
  | .sub => 2
  | .sbc => 3
  | .and => 4
  | .or => 5
  | .loadStore => 6
  | .branch => 7

/-- The shifter behaviour a shift code selects (R59). -/
def ShiftCode.ofBits (b : BitVec 2) : ShiftCode :=
  match b.toNat with
  | 0 => .none
  | 1 => .asr
  | 2 => .ror
  | _ => .rrc

/-- The shift code's value (R59). -/
def ShiftCode.bits : ShiftCode → BitVec 2
  | .none => 0
  | .asr => 1
  | .ror => 2
  | .rrc => 3

/-- The condition a condition field selects (spec/44_branch.md R121 to R136). -/
def Cond.ofBits (b : BitVec 4) : Cond :=
  match b.toNat with
  | 0 => .al
  | 1 => .nv
  | 2 => .hi
  | 3 => .ls
  | 4 => .cc
  | 5 => .cs
  | 6 => .ne
  | 7 => .eq
  | 8 => .vc
  | 9 => .vs
  | 10 => .pl
  | 11 => .mi
  | 12 => .ge
  | 13 => .lt
  | 14 => .gt
  | _ => .le

/-- The condition's number. -/
def Cond.bits : Cond → BitVec 4
  | .al => 0
  | .nv => 1
  | .hi => 2
  | .ls => 3
  | .cc => 4
  | .cs => 5
  | .ne => 6
  | .eq => 7
  | .vc => 8
  | .vs => 9
  | .pl => 10
  | .mi => 11
  | .ge => 12
  | .lt => 13
  | .gt => 14
  | .le => 15

/-! ### The decoder (R53, R60, R65) -/

/-- The type-3 instruction of a condition and an offset. -/
def decodeBranch (cond : Cond) (off : Word) : Instr :=
  match cond with
  | .al => .bal off
  | .nv => .bnv off
  | .hi => .bhi off
  | .ls => .bls off
  | .cc => .bcc off
  | .cs => .bcs off
  | .ne => .bne off
  | .eq => .beq off
  | .vc => .bvc off
  | .vs => .bvs off
  | .pl => .bpl off
  | .mi => .bmi off
  | .ge => .bge off
  | .lt => .blt off
  | .gt => .bgt off
  | .le => .ble off

/-- The type-1 or type-2 instruction of an opcode, a type bit and the fields both formats give; the opcode branch
takes the branch fields, whatever the type bit is (R53). -/
def decodeFields (op : Opcode) (t2 ldcc : Bool) (dst srcA srcB : Reg) (sh : ShiftCode) (imm : Word)
    (cond : Cond) (off : Word) : Instr :=
  match op, t2 with
  | .add, false => .addReg ldcc dst srcA srcB sh
  | .add, true => .addImm ldcc dst srcA imm
  | .adc, false => .adcReg ldcc dst srcA srcB sh
  | .adc, true => .adcImm ldcc dst srcA imm
  | .sub, false => .subReg ldcc dst srcA srcB sh
  | .sub, true => .subImm ldcc dst srcA imm
  | .sbc, false => .sbcReg ldcc dst srcA srcB sh
  | .sbc, true => .sbcImm ldcc dst srcA imm
  | .and, false => .andReg ldcc dst srcA srcB sh
  | .and, true => .andImm ldcc dst srcA imm
  | .or, false => .orReg ldcc dst srcA srcB sh
  | .or, true => .orImm ldcc dst srcA imm
  | .loadStore, false => bif ldcc then .stReg dst srcA srcB sh else .ldReg dst srcA srcB sh
  | .loadStore, true => bif ldcc then .stImm dst srcA imm else .ldImm dst srcA imm
  | .branch, _ => decodeBranch cond off

/-- `decode(w)` (R60): a pure, total function; no word is refused (R61). -/
def decode (w : Word) : Instr :=
  decodeFields (Opcode.ofBits (opcodeBits w)) (typeBit w) (ldccBit w) (Reg.ofBits (dstBits w))
    (Reg.ofBits (srcABits w)) (Reg.ofBits (srcBBits w)) (ShiftCode.ofBits (shBits w)) (sext5 (imm5Bits w))
    (Cond.ofBits (condBits w)) (sext8 (off8Bits w))

/-- The one word of a row of spec/opcode_table.json whose `nbits` bits are those of `w`, the bits above them 0.
An instruction is one word (R50), so there is no second word and `nbits` is 16; what stands above 16 bits is dropped
(DESIGN CHOICE, safe: notes/assumptions/10.md). -/
def tableWord (nbits w : Nat) : Word := BitVec.ofNat 16 (w % 2 ^ nbits)

/-- What the decoder reads from a row's word; it never refuses (R61). -/
def decodeTableWord (nbits w : Nat) : Option Instr := some (decode (tableWord nbits w))

/-! ### The encoder -/

/-- A field placed with its lowest bit at bit `lo` of the word. -/
def place {n : Nat} (v : BitVec n) (lo : Nat) : Word := v.setWidth 16 <<< lo

/-- A type-1 word: opcode 15:13, 0 at 12, ldcc 11, dst 10:8, srcA 7:5, srcB 4:2, sh 1:0 (R54, R63). -/
def encodeReg (op : Opcode) (ldcc : Bool) (dst srcA srcB : Reg) (sh : ShiftCode) : Word :=
  place op.bits 13 ||| place (BitVec.ofBool ldcc) 11 ||| place dst.bits 8 ||| place srcA.bits 5 |||
    place srcB.bits 2 ||| place sh.bits 0

/-- A type-2 word: opcode 15:13, 1 at 12, ldcc 11, dst 10:8, srcA 7:5, imm5 4:0 (R55, R63). -/
def encodeImm (op : Opcode) (ldcc : Bool) (dst srcA : Reg) (imm : Word) : Word :=
  place op.bits 13 ||| place (1 : BitVec 1) 12 ||| place (BitVec.ofBool ldcc) 11 ||| place dst.bits 8 |||
    place srcA.bits 5 ||| place (imm.setWidth 5) 0

/-- A type-3 word: 111 at 15:13, cond 11:8, off8 7:0 (R56, R63), with the ignored bit 12 written 0 (R62; the spec's
decision D15: DEDUCED, safe, notes/assumptions/11.md). -/
def encodeBranch (cond : Cond) (off : Word) : Word :=
  place Opcode.branch.bits 13 ||| place cond.bits 8 ||| place (off.setWidth 8) 0

/-- The word of a well-formed instruction. -/
def encode : Instr → Word
  | .addReg ldcc dst srcA srcB sh => encodeReg .add ldcc dst srcA srcB sh
  | .addImm ldcc dst srcA imm => encodeImm .add ldcc dst srcA imm
  | .adcReg ldcc dst srcA srcB sh => encodeReg .adc ldcc dst srcA srcB sh
  | .adcImm ldcc dst srcA imm => encodeImm .adc ldcc dst srcA imm
  | .subReg ldcc dst srcA srcB sh => encodeReg .sub ldcc dst srcA srcB sh
  | .subImm ldcc dst srcA imm => encodeImm .sub ldcc dst srcA imm
  | .sbcReg ldcc dst srcA srcB sh => encodeReg .sbc ldcc dst srcA srcB sh
  | .sbcImm ldcc dst srcA imm => encodeImm .sbc ldcc dst srcA imm
  | .andReg ldcc dst srcA srcB sh => encodeReg .and ldcc dst srcA srcB sh
  | .andImm ldcc dst srcA imm => encodeImm .and ldcc dst srcA imm
  | .orReg ldcc dst srcA srcB sh => encodeReg .or ldcc dst srcA srcB sh
  | .orImm ldcc dst srcA imm => encodeImm .or ldcc dst srcA imm
  | .ldReg dst srcA srcB sh => encodeReg .loadStore false dst srcA srcB sh
  | .ldImm dst srcA imm => encodeImm .loadStore false dst srcA imm
  | .stReg dst srcA srcB sh => encodeReg .loadStore true dst srcA srcB sh
  | .stImm dst srcA imm => encodeImm .loadStore true dst srcA imm
  | .bal off => encodeBranch .al off
  | .bnv off => encodeBranch .nv off
  | .bhi off => encodeBranch .hi off
  | .bls off => encodeBranch .ls off
  | .bcc off => encodeBranch .cc off
  | .bcs off => encodeBranch .cs off
  | .bne off => encodeBranch .ne off
  | .beq off => encodeBranch .eq off
  | .bvc off => encodeBranch .vc off
  | .bvs off => encodeBranch .vs off
  | .bpl off => encodeBranch .pl off
  | .bmi off => encodeBranch .mi off
  | .bge off => encodeBranch .ge off
  | .blt off => encodeBranch .lt off
  | .bgt off => encodeBranch .gt off
  | .ble off => encodeBranch .le off

end Sys2Proof
end

