-- ==== Sys2Proof/Machine/Port.lean ====
section
/-! DEFINITION. The memory accesses of a step as the memory port carries them, in order (spec/20_memory.md R33, R39,
R40): the fetch read, then at most one data access.  They are a view of the step; the step itself works on
`State.mem`, and the two are indistinguishable to a program (R40). -/

namespace Sys2Proof.Machine

open Sys2Proof

/-- One access on the port: `mem_we` = 0 with `mem_addr`, or `mem_we` = 1 with `mem_addr` and `mem_wdata` (R40). -/
inductive PortAccess where
  | read (addr : Word)
  | write (addr data : Word)
deriving DecidableEq, Repr

/-- The data access of an instruction, seen from the state after the pc's increment: a read at EA for LD, a write of
`x[dst]` at EA for ST, none otherwise (R33). -/
def dataAccess (i : Instr) (s : State) : List PortAccess :=
  match i with
  | .addReg _ _ _ _ _ => []
  | .addImm _ _ _ _ => []
  | .adcReg _ _ _ _ _ => []
  | .adcImm _ _ _ _ => []
  | .subReg _ _ _ _ _ => []
  | .subImm _ _ _ _ => []
  | .sbcReg _ _ _ _ _ => []
  | .sbcImm _ _ _ _ => []
  | .andReg _ _ _ _ _ => []
  | .andImm _ _ _ _ => []
  | .orReg _ _ _ _ _ => []
  | .orImm _ _ _ _ => []
  | .ldReg _ srcA srcB sh => [.read (effectiveAddressReg srcA srcB sh s)]
  | .ldImm _ srcA imm => [.read (effectiveAddressImm srcA imm s)]
  | .stReg dst srcA srcB sh => [.write (effectiveAddressReg srcA srcB sh s) (s.readReg dst)]
  | .stImm dst srcA imm => [.write (effectiveAddressImm srcA imm s) (s.readReg dst)]
  | .bal _ => []
  | .bnv _ => []
  | .bhi _ => []
  | .bls _ => []
  | .bcc _ => []
  | .bcs _ => []
  | .bne _ => []
  | .beq _ => []
  | .bvc _ => []
  | .bvs _ => []
  | .bpl _ => []
  | .bmi _ => []
  | .bge _ => []
  | .blt _ => []
  | .bgt _ => []
  | .ble _ => []

/-- The port accesses of one step, first to last. -/
def portAccesses (s : State) : List PortAccess :=
  .read s.pc :: dataAccess (decode s.fetchWord) s.advancePc

/-- Whether an access is on the port with `mem_we` = 1. -/
def PortAccess.isWrite : PortAccess → Bool
  | .read _ => false
  | .write _ _ => true

end Sys2Proof.Machine
end

