-- ==== Sys2Proof/Machine/Step.lean ====
section
/-! DEFINITION. The step (spec/45_step.md R145): fetch, increment, decode, dispatch; and the request at a clock edge
(R148). -/

namespace Sys2Proof.Machine

open Sys2Proof

/-- One step: the word at the pc is fetched, the pc is incremented, the word is decoded and the instruction executes
on the state with the incremented pc (R145). -/
def step (s : State) : Host.Outcome State Fault Refusal := exec (decode s.fetchWord) s.advancePc

/-- The state with a row's word stored where `step` fetches its next instruction: at the pc (R145).  It
stands for the load of a program from outside the machine (DEDUCED, safe: notes/assumptions/4.md). -/
def State.withFetchWord (s : State) (nbits w : Nat) : State := s.memWrite s.pc (tableWord nbits w)

/-- A rising clock edge with the core idle (R148, R162, R180): `rst` wins over `step`, a request makes exactly one
step, and with neither the state stays.  `o` is what the registers and flags hold after a reset (R24).
A step in progress and reset in the middle of one are not in the model (DEDUCED, unsafe there: notes/assumptions/5.md). -/
def clockEdge (rst request : Bool) (o : Config.ResetValues) (s : State) : Host.Outcome State Fault Refusal :=
  match rst, request with
  | true, _ => .next (s.applyReset o)
  | false, true => step s
  | false, false => .next s

end Sys2Proof.Machine
end

