-- ==== Sys2Proof/Safety.lean ====
section
/-! DEFINITION. What counts as a safe run, a kept invariant and the end of a run, in the words the statements use. -/

namespace Sys2Proof.Safety

open Sys2Proof Sys2Proof.Machine

/-- The invariant every step keeps: the memory is in its canonical form. -/
abbrev Inv (s : State) : Prop := s.mem.wf

/-- `n` steps from `s`, ending at the first fault or refusal; no step stops on this hardware
(spec/60_exceptions.md R160). -/
def run : Nat → State → Host.Outcome State Fault Refusal
  | 0, s => .next s
  | n + 1, s =>
    match step s with
    | .next t => run n t
    | .fault r => .fault r
    | .refused r => .refused r

/-- A run of `n` steps is safe: it answers a state. -/
def SafeFor (n : Nat) (s : State) : Prop := ∃ t, run n s = .next t

/-- No further step changes the state. -/
def Still (s : State) : Prop := ∀ n, run n s = .next s

/-- The run has ended in `s` (spec/45_step.md R149 (b)): the word at the pc is the branch-always to itself `BAL -1`, in
one of its two encodings.  A state that is `Still` by another word is no end of a run. -/
abbrev Ended (s : State) : Prop := s.memRead s.pc = 0xE0FF ∨ s.memRead s.pc = 0xF0FF

/-- `t` is the end state of the run from `s`: some number of steps leads to it and the run has ended there.  A run
that never reaches a `BAL -1` has no end state, only states after n steps (R149). -/
def EndsIn (s t : State) : Prop := (∃ n, run n s = .next t) ∧ Ended t

end Sys2Proof.Safety
end

