-- ==== Sys2Proof/Certificates/Slice0/Obligations.lean ====
section
/-! DEFINITION. The statements for the provers, each a `def Obligations.<Name> : Prop`, and before them the words they
are written in: what a rule of spec/ says in plain numbers, written a second time and apart from the model. -/

namespace Sys2Proof.Stated

open Sys2Proof Sys2Proof.Machine

/-! ### The words of the statements -/

/-- Slot `dst` receives `r` (slot 0 keeps reading 0), every other slot keeps its value (slot 7 is the pc), and every
word of memory reads as before. -/
def WritesOnly (dst : Reg) (r : Word) (s t : State) : Prop :=
  t.readReg dst = (if dst = .r0 then 0 else r) ∧ (∀ q, q ≠ dst → t.readReg q = s.readReg q) ∧
    ∀ a, t.memRead a = s.memRead a

/-- The one word at `ea` becomes `v`; every other word, every slot and every flag is as before. -/
def StoresOnly (ea v : Word) (s t : State) : Prop :=
  t.memRead ea = v ∧ (∀ a, a ≠ ea → t.memRead a = s.memRead a) ∧ (∀ q, t.readReg q = s.readReg q) ∧
    t.flags = s.flags

/-- A signed value that 16 bits cannot hold. -/
def outOfRange (x : Int) : Bool := decide (x < -32768 ∨ 32767 < x)

/-- The flags after an arithmetic instruction with result `r`: all four when `ldcc` is set, none otherwise. -/
def arithFlags (ldcc carry overflow : Bool) (r : Word) (s : State) : Flags :=
  if ldcc then { c := carry, v := overflow, z := decide (r.toNat = 0), n := decide (r.toInt < 0) } else s.flags

/-- The flags after a logic instruction with result `r` (R102). -/
def bitwiseFlags (ldcc carry : Bool) (r : Word) (s : State) : Flags :=
  if ldcc then { c := carry, v := false, z := decide (r.toNat = 0), n := decide (r.toInt < 0) } else s.flags

/-- What ADD leaves for operands `A` and `B`. -/
def AddLeaves (ldcc : Bool) (dst : Reg) (A B : Word) (s t : State) : Prop :=
  WritesOnly dst (BitVec.ofNat 16 (A.toNat + B.toNat)) s t ∧
    t.flags = arithFlags ldcc (decide (65536 ≤ A.toNat + B.toNat)) (outOfRange (A.toInt + B.toInt))
      (BitVec.ofNat 16 (A.toNat + B.toNat)) s

/-- What ADC leaves for operands `A` and `B`; the carry is the one of `s`. -/
def AdcLeaves (ldcc : Bool) (dst : Reg) (A B : Word) (s t : State) : Prop :=
  WritesOnly dst (BitVec.ofNat 16 (A.toNat + B.toNat + s.flags.c.toNat)) s t ∧
    t.flags = arithFlags ldcc (decide (65536 ≤ A.toNat + B.toNat + s.flags.c.toNat))
      (outOfRange (A.toInt + B.toInt + s.flags.c.toNat)) (BitVec.ofNat 16 (A.toNat + B.toNat + s.flags.c.toNat)) s

/-- What SUB leaves: C is a borrow. -/
def SubLeaves (ldcc : Bool) (dst : Reg) (A B : Word) (s t : State) : Prop :=
  WritesOnly dst (BitVec.ofInt 16 (A.toInt - B.toInt)) s t ∧
    t.flags = arithFlags ldcc (decide (A.toNat < B.toNat)) (outOfRange (A.toInt - B.toInt))
      (BitVec.ofInt 16 (A.toInt - B.toInt)) s

/-- What SBC leaves: C is a borrow, and the borrow of `s` is subtracted too. -/
def SbcLeaves (ldcc : Bool) (dst : Reg) (A B : Word) (s t : State) : Prop :=
  WritesOnly dst (BitVec.ofInt 16 (A.toInt - B.toInt - s.flags.c.toNat)) s t ∧
    t.flags = arithFlags ldcc (decide (A.toNat < B.toNat + s.flags.c.toNat))
      (outOfRange (A.toInt - B.toInt - s.flags.c.toNat)) (BitVec.ofInt 16 (A.toInt - B.toInt - s.flags.c.toNat)) s

/-- The slot an instruction writes its result to: dst of the arithmetic and logic instructions and of LD; ST and the
branches have none (R14). -/
def destination : Instr → Option Reg
  | .addReg _ dst _ _ _ | .addImm _ dst _ _ | .adcReg _ dst _ _ _ | .adcImm _ dst _ _ => some dst
  | .subReg _ dst _ _ _ | .subImm _ dst _ _ | .sbcReg _ dst _ _ _ | .sbcImm _ dst _ _ => some dst
  | .andReg _ dst _ _ _ | .andImm _ dst _ _ | .orReg _ dst _ _ _ | .orImm _ dst _ _ => some dst
  | .ldReg dst _ _ _ | .ldImm dst _ _ => some dst
  | .stReg _ _ _ _ | .stImm _ _ _ => none
  | .bal _ | .bnv _ | .bhi _ | .bls _ | .bcc _ | .bcs _ | .bne _ | .beq _ => none
  | .bvc _ | .bvs _ | .bpl _ | .bmi _ | .bge _ | .blt _ | .bgt _ | .ble _ => none

/-- The same instruction with slot 0 as its destination (ST and the branches have no destination). -/
def discarding : Instr → Instr
  | .addReg l _ a b h => .addReg l .r0 a b h
  | .addImm l _ a i => .addImm l .r0 a i
  | .adcReg l _ a b h => .adcReg l .r0 a b h
  | .adcImm l _ a i => .adcImm l .r0 a i
  | .subReg l _ a b h => .subReg l .r0 a b h
  | .subImm l _ a i => .subImm l .r0 a i
  | .sbcReg l _ a b h => .sbcReg l .r0 a b h
  | .sbcImm l _ a i => .sbcImm l .r0 a i
  | .andReg l _ a b h => .andReg l .r0 a b h
  | .andImm l _ a i => .andImm l .r0 a i
  | .orReg l _ a b h => .orReg l .r0 a b h
  | .orImm l _ a i => .orImm l .r0 a i
  | .ldReg _ a b h => .ldReg .r0 a b h
  | .ldImm _ a i => .ldImm .r0 a i
  | i => i

/-- An arithmetic or logic instruction with ldcc set: the only writers of the condition flags (R17). -/
def setsFlags : Instr → Bool
  | .addReg l _ _ _ _ | .addImm l _ _ _ | .adcReg l _ _ _ _ | .adcImm l _ _ _ => l
  | .subReg l _ _ _ _ | .subImm l _ _ _ | .sbcReg l _ _ _ _ | .sbcImm l _ _ _ => l
  | .andReg l _ _ _ _ | .andImm l _ _ _ | .orReg l _ _ _ _ | .orImm l _ _ _ => l
  | .ldReg _ _ _ _ | .ldImm _ _ _ | .stReg _ _ _ _ | .stImm _ _ _ => false
  | .bal _ | .bnv _ | .bhi _ | .bls _ | .bcc _ | .bcs _ | .bne _ | .beq _ => false
  | .bvc _ | .bvs _ | .bpl _ | .bmi _ | .bge _ | .blt _ | .bgt _ | .ble _ => false

/-- The register and shift code that a type-1 instruction of opcode 0 to 6 gives the shifter. -/
def shifted : Instr → Option (Reg × ShiftCode)
  | .addReg _ _ a _ h | .adcReg _ _ a _ h | .subReg _ _ a _ h | .sbcReg _ _ a _ h => some (a, h)
  | .andReg _ _ a _ h | .orReg _ _ a _ h | .ldReg _ a _ h | .stReg _ a _ h => some (a, h)
  | .addImm _ _ _ _ | .adcImm _ _ _ _ | .subImm _ _ _ _ | .sbcImm _ _ _ _ => none
  | .andImm _ _ _ _ | .orImm _ _ _ _ | .ldImm _ _ _ | .stImm _ _ _ => none
  | .bal _ | .bnv _ | .bhi _ | .bls _ | .bcc _ | .bcs _ | .bne _ | .beq _ => none
  | .bvc _ | .bvs _ | .bpl _ | .bmi _ | .bge _ | .blt _ | .bgt _ | .ble _ => none

/-- ST, either form. -/
def isStore : Instr → Bool
  | .stReg _ _ _ _ | .stImm _ _ _ => true
  | _ => false

/-- LD, either form. -/
def isLoad : Instr → Bool
  | .ldReg _ _ _ _ | .ldImm _ _ _ => true
  | _ => false

/-- The condition and offset of a branch. -/
def branchOf : Instr → Option (Cond × Word)
  | .bal o => some (.al, o)
  | .bnv o => some (.nv, o)
  | .bhi o => some (.hi, o)
  | .bls o => some (.ls, o)
  | .bcc o => some (.cc, o)
  | .bcs o => some (.cs, o)
  | .bne o => some (.ne, o)
  | .beq o => some (.eq, o)
  | .bvc o => some (.vc, o)
  | .bvs o => some (.vs, o)
  | .bpl o => some (.pl, o)
  | .bmi o => some (.mi, o)
  | .bge o => some (.ge, o)
  | .blt o => some (.lt, o)
  | .bgt o => some (.gt, o)
  | .ble o => some (.le, o)
  | _ => none

/-- What R86 to R89 feed the adder, and whether the carry is inverted: `(a, b, carry_in, invert)`; none for an
instruction that is not arithmetic. -/
def adderInputs (i : Instr) (s : State) : Option (Word × Word × Bool × Bool) :=
  match i with
  | .addReg _ _ a b h => some (operandAReg a h s, operandBReg b s, false, false)
  | .addImm _ _ a m => some (operandAImm a s, m, false, false)
  | .adcReg _ _ a b h => some (operandAReg a h s, operandBReg b s, s.flags.c, false)
  | .adcImm _ _ a m => some (operandAImm a s, m, s.flags.c, false)
  | .subReg _ _ a b h => some (operandAReg a h s, ~~~(operandBReg b s), true, true)
  | .subImm _ _ a m => some (operandAImm a s, ~~~m, true, true)
  | .sbcReg _ _ a b h => some (operandAReg a h s, ~~~(operandBReg b s), !s.flags.c, true)
  | .sbcImm _ _ a m => some (operandAImm a s, ~~~m, !s.flags.c, true)
  | _ => none

/-- The row of spec/opcode_table.json, counted from 0, that an instruction belongs to. -/
def rowOf : Instr → Nat
  | .addReg _ _ _ _ _ => 0
  | .addImm _ _ _ _ => 1
  | .adcReg _ _ _ _ _ => 2
  | .adcImm _ _ _ _ => 3
  | .subReg _ _ _ _ _ => 4
  | .subImm _ _ _ _ => 5
  | .sbcReg _ _ _ _ _ => 6
  | .sbcImm _ _ _ _ => 7
  | .andReg _ _ _ _ _ => 8
  | .andImm _ _ _ _ => 9
  | .orReg _ _ _ _ _ => 10
  | .orImm _ _ _ _ => 11
  | .ldReg _ _ _ _ => 12
  | .ldImm _ _ _ => 13
  | .stReg _ _ _ _ => 14
  | .stImm _ _ _ => 15
  | .bal _ => 16
  | .bnv _ => 17
  | .bhi _ => 18
  | .bls _ => 19
  | .bcc _ => 20
  | .bcs _ => 21
  | .bne _ => 22
  | .beq _ => 23
  | .bvc _ => 24
  | .bvs _ => 25
  | .bpl _ => 26
  | .bmi _ => 27
  | .bge _ => 28
  | .blt _ => 29
  | .bgt _ => 30
  | .ble _ => 31

/-- The (match, mask) columns of spec/opcode_table.json, row by row. -/
def tableRows : List (Word × Word) :=
  [(0x0000, 0xF000), (0x1000, 0xF000), (0x2000, 0xF000), (0x3000, 0xF000),
   (0x4000, 0xF000), (0x5000, 0xF000), (0x6000, 0xF000), (0x7000, 0xF000)] ++
  [(0x8000, 0xF000), (0x9000, 0xF000), (0xA000, 0xF000), (0xB000, 0xF000),
   (0xC000, 0xF800), (0xD000, 0xF800), (0xC800, 0xF800), (0xD800, 0xF800)] ++
  [(0xE000, 0xEF00), (0xE100, 0xEF00), (0xE200, 0xEF00), (0xE300, 0xEF00),
   (0xE400, 0xEF00), (0xE500, 0xEF00), (0xE600, 0xEF00), (0xE700, 0xEF00)] ++
  [(0xE800, 0xEF00), (0xE900, 0xEF00), (0xEA00, 0xEF00), (0xEB00, 0xEF00),
   (0xEC00, 0xEF00), (0xED00, 0xEF00), (0xEE00, 0xEF00), (0xEF00, 0xEF00)]

/-! ### The whole machine of R151, in unbounded numbers -/

/-- `w[hi:lo]`. -/
def field (w hi lo : Nat) : Nat := w / 2 ^ lo % 2 ^ (hi - lo + 1)

/-- `sext_16(v, n)` as a number below 65536 (R7). -/
def sext16 (v n : Nat) : Nat := if v < 2 ^ (n - 1) then v else v + 65536 - 2 ^ n

/-- `x[i]` as a number (R11, R13). -/
def slot (s : State) (i : Nat) : Nat :=
  if i = 1 then s.r1.toNat else if i = 2 then s.r2.toNat else if i = 3 then s.r3.toNat
  else if i = 4 then s.r4.toNat else if i = 5 then s.r5.toNat else if i = 6 then s.r6.toNat
  else if i = 7 then s.pc.toNat else 0

/-- `x[i] <- v` (R12, R13). -/
def withSlot (s : State) (i v : Nat) : State :=
  if i = 1 then { s with r1 := BitVec.ofNat 16 v } else if i = 2 then { s with r2 := BitVec.ofNat 16 v }
  else if i = 3 then { s with r3 := BitVec.ofNat 16 v } else if i = 4 then { s with r4 := BitVec.ofNat 16 v }
  else if i = 5 then { s with r5 := BitVec.ofNat 16 v } else if i = 6 then { s with r6 := BitVec.ofNat 16 v }
  else if i = 7 then { s with pc := BitVec.ofNat 16 v } else s

/-- The output of `shift(v, sh, c)` as a number (R72 to R75). -/
def shiftedNumber (v sh c : Nat) : Nat :=
  if sh = 0 then v
  else v / 2 + 32768 * (if sh = 1 then v / 32768 else if sh = 2 then v % 2 else c)

/-- `taken` on the condition's number (R121 to R136). -/
def takenNumber (cond : Nat) (c v z n : Bool) : Bool :=
  let test := if cond / 2 = 0 then true
    else if cond / 2 = 1 then !(c || z)
    else if cond / 2 = 2 then !c
    else if cond / 2 = 3 then !z
    else if cond / 2 = 4 then !v
    else if cond / 2 = 5 then !n
    else if cond / 2 = 6 then n == v
    else n == v && !z
  if cond % 2 = 0 then test else !test

/-- The adder and the flags of an arithmetic instruction (R85, R90), then the destination (R91). -/
def afterAdd (ldcc : Bool) (dst a b cin : Nat) (invert : Bool) (s : State) : State :=
  let sum := (a + b + cin) % 65536
  let flags : Flags :=
    { c := decide (65536 ≤ a + b + cin) != invert
      v := a / 32768 == b / 32768 && sum / 32768 != a / 32768
      z := sum == 0
      n := sum / 32768 == 1 }
  withSlot (bif ldcc then { s with flags := flags } else s) dst sum

/-- The flags of a logic instruction (R102), then the destination (R103). -/
def afterLogic (ldcc : Bool) (dst res : Nat) (carry : Bool) (s : State) : State :=
  let flags : Flags := { c := carry, v := false, z := res == 0, n := res / 32768 == 1 }
  withSlot (bif ldcc then { s with flags := flags } else s) dst res

/-- R151 after its first line: what the word `w` does to the state `s` whose pc is already incremented, on numbers
and without the model's decoder, shifter, adder, condition evaluator or meanings. -/
def wholeExec (w : Nat) (s : State) : State :=
  let c := s.flags.c.toNat
  let op := field w 15 13
  let d := field w 10 8
  let ldcc : Bool := field w 11 11 == 1
  let type1 : Bool := field w 12 12 == 0
  let x := slot s (field w 7 5)
  let a := bif type1 then shiftedNumber x (field w 1 0) c else x
  let b := bif type1 then slot s (field w 4 2) else sext16 (field w 4 0) 5
  let s2 := bif type1 then { s with sc := field w 1 0 != 0 && x % 2 == 1 } else s
  if op = 7 then
    bif takenNumber (field w 11 8) s.flags.c s.flags.v s.flags.z s.flags.n then
      { s with pc := BitVec.ofNat 16 (s.pc.toNat + sext16 (field w 7 0) 8) }
    else s
  else if op = 0 then afterAdd ldcc d a b 0 false s2
  else if op = 1 then afterAdd ldcc d a b c false s2
  else if op = 2 then afterAdd ldcc d a (65535 - b) 1 true s2
  else if op = 3 then afterAdd ldcc d a (65535 - b) (1 - c) true s2
  else if op = 4 then afterLogic ldcc d (a &&& b) (type1 && s2.sc) s2
  else if op = 5 then afterLogic ldcc d (a ||| b) (type1 && s2.sc) s2
  else
    bif ldcc then { s2 with mem := s2.mem.write (BitVec.ofNat 16 (a + b)) (BitVec.ofNat 16 (slot s d)) }
    else withSlot s2 d (s2.memRead (BitVec.ofNat 16 (a + b))).toNat

/-- The whole machine as one function (spec/45_step.md R151). -/
def wholeStep (s : State) : State :=
  wholeExec (s.memRead s.pc).toNat { s with pc := BitVec.ofNat 16 (s.pc.toNat + 1) }

/-! ### Runs -/

/-- The stores of the first `n` steps from `s`, oldest first, as (address, word). -/
def storesOfRun : Nat → State → List (Word × Word)
  | 0, _ => []
  | n + 1, s =>
    (portAccesses s).filterMap (fun p => match p with | .read _ => none | .write a v => some (a, v)) ++
      match step s with
      | .next t => storesOfRun n t
      | .fault _ => []
      | .refused _ => []

/-- The last word stored to `a`, if any. -/
def lastStored (stores : List (Word × Word)) (a : Word) : Option Word :=
  (stores.reverse.find? (fun p => p.1 == a)).map Prod.snd

/-- The state after `ORS Rd, Rd RRC, R0`, one RRC with the carry passed on (R80). -/
def rrcOnce (rd : Reg) (s : State) : State :=
  match exec (.orReg true rd rd .r0 .rrc) s with
  | .next t => t
  | .fault _ => s
  | .refused _ => s

end Sys2Proof.Stated

open Sys2Proof Sys2Proof.Machine Sys2Proof.Stated

/-! ### Registers, pc, flags, memory -/

/-- R11: `x[i]` returns 0 for index 0, else the stored value, and 0 for slot 0 after a write of any value to it. -/
def Obligations.RegisterReadGivesZeroOrStored : Prop :=
  ∀ s : State, s.readReg .r0 = 0 ∧ (∀ v, (s.writeReg .r0 v).readReg .r0 = 0) ∧
    s.readReg .r1 = s.r1 ∧ s.readReg .r2 = s.r2 ∧ s.readReg .r3 = s.r3 ∧ s.readReg .r4 = s.r4 ∧
    s.readReg .r5 = s.r5 ∧ s.readReg .r6 = s.r6 ∧ s.readReg .r7 = s.pc

/-- R12: a write to slot 0 is discarded, a write to another slot stores the value and changes nothing else, and an
instruction whose destination is slot 0 does everything else it does. -/
def Obligations.SlotZeroDiscardsWrites : Prop :=
  (∀ (s : State) (v : Word), s.writeReg .r0 v = s) ∧
  (∀ (s : State) (r : Reg) (v : Word), r ≠ .r0 →
    (s.writeReg r v).readReg r = v ∧ (∀ q, q ≠ r → (s.writeReg r v).readReg q = s.readReg q) ∧
    (s.writeReg r v).flags = s.flags ∧ (s.writeReg r v).sc = s.sc ∧ (s.writeReg r v).mem = s.mem) ∧
  ∀ (i : Instr) (s : State), ∃ t t0, exec i s = .next t ∧ exec (discarding i) s = .next t0 ∧
    t0.flags = t.flags ∧ t0.sc = t.sc ∧ (∀ a, t0.memRead a = t.memRead a) ∧
    ∀ q, destination i ≠ some q → t0.readReg q = t.readReg q

/-- R13: slot 7 and the pc are one storage element; the state an instruction executes on reads it as the
instruction's address plus 1, and a write to it decides the next fetch. -/
def Obligations.SlotSevenIsThePc : Prop :=
  ∀ (s : State) (v : Word), s.readReg .r7 = s.pc ∧ s.writeReg .r7 v = { s with pc := v } ∧
    step s = exec (decode s.fetchWord) s.advancePc ∧
    (s.advancePc.readReg .r7).toNat = (s.pc.toNat + 1) % 65536 ∧
    (s.writeReg .r7 v).fetchWord = s.memRead v

/-- R35: `MemRead` returns `Mem[a]`; `MemWrite` replaces `Mem[a]` and changes no other cell and no register. -/
def Obligations.MemoryWriteChangesOneWord : Prop :=
  ∀ (s : State) (a v : Word), (s.memWrite a v).memRead a = v ∧
    (∀ b, b ≠ a → (s.memWrite a v).memRead b = s.memRead b) ∧
    (∀ q, (s.memWrite a v).readReg q = s.readReg q) ∧
    (s.memWrite a v).flags = s.flags ∧ (s.memWrite a v).sc = s.sc

/-- The canonical form makes equal memories equal data (the model's form, log entry 3, of the array of R30). -/
def Obligations.CanonicalMemoriesAreEqualWhenTheyReadAlike : Prop :=
  ∀ m m' : Memory, m.wf → m'.wf → (∀ a, m.read a = m'.read a) → m = m'

/-- INIT_MEM is "any function from address to word" (R24, D10): every such function is a memory of the model, so a
statement over all states speaks of every initial memory, whatever log entry 2 chose for an unlisted word. -/
def Obligations.EveryInitialMemoryIsAState : Prop :=
  ∀ f : Word → Word, ∃ m : Memory, m.wf ∧ ∀ a, m.read a = f a

/-- Line k of a loaded image gives Mem[k] (R183).  That the loaded memory is canonical is about the model's own form
(DESIGN CHOICE, log entry 3), and that it is so for an image of more than 65536 lines, whose excess lines are dropped,
is the model's own choice too (DESIGN CHOICE, log entry 10). -/
def Obligations.ImageLineGivesItsWord : Prop :=
  ∀ ws : List Word, (Memory.ofWords ws).wf ∧
    ∀ k (h : k < ws.length), k < 65536 → (Memory.ofWords ws).read (BitVec.ofNat 16 k) = ws[k]

/-- R18 (the spec's decision D5) and R148: the packed condition code and the inspection reads. -/
def Obligations.InspectionShowsState : Prop :=
  ∀ s : State, (s.dbgCc.getLsbD 0 = s.flags.c ∧ s.dbgCc.getLsbD 1 = s.flags.v ∧
    s.dbgCc.getLsbD 2 = s.flags.z ∧ s.dbgCc.getLsbD 3 = s.flags.n) ∧
    s.dbgReg .r0 = 0 ∧ s.dbgReg .r7 = s.pc ∧ s.dbgSc = s.sc

/-! ### Reset -/

/-- R180, R181: reset sets the pc to 0x0000, gives R1 to R6, the flags and SC unspecified values, and leaves memory
alone; it may leave the rest as it was. -/
def Obligations.ResetEventSetsPcToZero : Prop :=
  ∀ (o : Config.ResetValues) (s : State),
    (s.applyReset o).pc = 0x0000 ∧ (∀ a, (s.applyReset o).memRead a = s.memRead a) ∧
    (s.applyReset o).keptValues = o ∧ s.applyReset s.keptValues = { s with pc := 0x0000 }

/-- The state after reset: pc 0x0000 (R24, D8).  The zero registers, flags and SC are the model's choice (log entry 1),
and so is the 0x0000 of every memory word (log entry 2). -/
def Obligations.ResetStateValues : Prop :=
  State.reset.pc = 0x0000 ∧ (∀ q, State.reset.readReg q = 0x0000) ∧
    State.reset.flags = { c := false, v := false, z := false, n := false } ∧ State.reset.sc = false ∧
    ∀ a, State.reset.memRead a = 0x0000

/-- R148, R162, R180: at a clock edge of the idle core reset wins over a request, a request makes one step, and with
neither nothing changes. -/
def Obligations.ResetWinsAtTheClockEdge : Prop :=
  ∀ (o : Config.ResetValues) (s : State),
    (∀ request, clockEdge true request o s = .next (s.applyReset o)) ∧
    clockEdge false true o s = step s ∧ clockEdge false false o s = .next s

/-! ### Encoding -/

/-- Words of spec/95_test_vectors.md section 2.1, written out bit by bit, decode as that section says. -/
def Obligations.SampleWordsDecode : Prop :=
  decode 0b0000000000000000 = .addReg false .r0 .r0 .r0 .none ∧
  decode 0b0001001000110100 = .addImm false .r2 .r1 0xFFF4 ∧
  decode 0b0010110010111011 = .adcReg true .r4 .r5 .r6 .rrc ∧
  decode 0b0101010101010101 = .subImm false .r5 .r2 0xFFF5 ∧
  decode 0b0110111111111111 = .sbcReg true .r7 .r7 .r7 .rrc ∧
  decode 0b1000100101001110 = .andReg true .r1 .r2 .r3 .ror ∧
  decode 0b1010101111001101 = .orReg true .r3 .r6 .r3 .asr ∧
  decode 0b1100000011011110 = .ldReg .r0 .r6 .r7 .ror ∧
  decode 0b1101111010101101 = .stImm .r6 .r5 13 ∧
  decode 0b1111111111111111 = .ble 0xFFFF ∧
  decode 0b1110001010000000 = .bhi 0xFF80

/-- R57, R58: the 5-bit immediate copies its bit 4 into bits 15 to 5 and the 8-bit offset its bit 7 into bits 15 to 8;
each is read as the signed number of its own width. -/
def Obligations.FieldsAreSignExtended : Prop :=
  (∀ f : BitVec 5, sext5 f = (if f.getLsbD 4 then 0xFFE0 ||| f.setWidth 16 else f.setWidth 16) ∧
    (sext5 f).toInt = f.toInt ∧ -16 ≤ (sext5 f).toInt ∧ (sext5 f).toInt ≤ 15) ∧
  ∀ f : BitVec 8, sext8 f = (if f.getLsbD 7 then 0xFF00 ||| f.setWidth 16 else f.setWidth 16) ∧
    (sext8 f).toInt = f.toInt ∧ -128 ≤ (sext8 f).toInt ∧ (sext8 f).toInt ≤ 127

/-- Decoding an encoded well-formed instruction gives it back, every operand at every value. -/
def Obligations.DecodeEncodeRoundTrip : Prop :=
  ∀ i : Instr, i.wellFormed = true → decode (encode i) = i

/-- Encoding a decoded word gives it back; in a branch the ignored bit 12 comes back 0 (R62, D15). -/
def Obligations.EncodeDecodeGivesTheWord : Prop :=
  ∀ w : Word, encode (decode w) = if w.getLsbD 15 && w.getLsbD 14 && w.getLsbD 13 then w &&& 0xEFFF else w

/-- R62: bit 12 of a branch word is ignored, and no other bit of any word is. -/
def Obligations.OnlyBranchBitTwelveIsIgnored : Prop :=
  ∀ w w' : Word, decode w = decode w' ↔
    w = w' ∨ (w &&& 0xE000 = 0xE000 ∧ w' = w ^^^ 0x1000)

/-- R61: every word is a legal instruction, with every field legal, and executes. -/
def Obligations.EveryWordIsLegal : Prop :=
  ∀ w : Word, ∃ i, decodeTableWord 16 w.toNat = some i ∧ decode w = i ∧ i.wellFormed = true ∧
    ∀ s, ∃ t, exec i s = .next t

/-- R65 with spec/opcode_table.json: a word matches row k of the table exactly when it decodes to row k's
instruction, so the 32 rows divide the 65536 words. -/
def Obligations.OpcodeTableDividesTheWords : Prop :=
  ∀ (w : Word) (k : Nat) (row : Word × Word), tableRows[k]? = some row →
    (w &&& row.2 = row.1 ↔ rowOf (decode w) = k)

/-- R64: the pseudo-instructions have the words the spec gives. -/
def Obligations.PseudoInstructionWords : Prop :=
  encode Instr.nop = 0x0000 ∧ encode Instr.halt = 0xE0FF ∧
  (∀ d a, encode (Instr.movReg d a) = 0xA000 ||| place d.bits 8 ||| place a.bits 5) ∧
  (∀ d (m : Word), encode (Instr.movImm d m) = 0x1000 ||| place d.bits 8 ||| (m &&& 0x001F)) ∧
  (∀ d a sh, encode (Instr.shiftReg false d a sh) = 0xA000 ||| place d.bits 8 ||| place a.bits 5 ||| place sh.bits 0) ∧
  (∀ d a sh, encode (Instr.shiftReg true d a sh) = 0xA800 ||| place d.bits 8 ||| place a.bits 5 ||| place sh.bits 0) ∧
  (∀ a b, encode (Instr.cmpReg a b) = 0x4800 ||| place a.bits 5 ||| place b.bits 2) ∧
  (∀ a (m : Word), encode (Instr.cmpImm a m) = 0x5800 ||| place a.bits 5 ||| (m &&& 0x001F)) ∧
  (∀ a b, encode (Instr.tstReg a b) = 0x8800 ||| place a.bits 5 ||| place b.bits 2) ∧
  ∀ a, encode (Instr.jmpReg a) = 0xA700 ||| place a.bits 5

/-! ### The shifter -/

/-- R72: NONE leaves the value and clears SC, even when SC was 1, and touches nothing else. -/
def Obligations.ShiftNoneClearsScOnly : Prop :=
  ∀ (v : Word) (c : Bool), shiftOut v .none c = v ∧ shiftCarry v .none = false ∧
    ∀ (a : Reg) (s : State), runShifter a .none s = { s with sc := false }

/-- R73: ASR moves every bit one place right and keeps bit 15; as a signed operation it is floor division by 2 with
the remainder in sc. -/
def Obligations.AsrHalvesTheSignedValue : Prop :=
  ∀ (v : Word) (c : Bool),
    (shiftOut v .asr c).getLsbD 15 = v.getLsbD 15 ∧
    (∀ i, i < 15 → (shiftOut v .asr c).getLsbD i = v.getLsbD (i + 1)) ∧
    shiftCarry v .asr = v.getLsbD 0 ∧
    (shiftOut v .asr c).toInt = v.toInt / 2 ∧ ((shiftCarry v .asr).toNat : Int) = v.toInt % 2

/-- R74: ROR moves every bit one place right and bit 0 to bit 15, which is also sc; sixteen of them return the word. -/
def Obligations.RorRotatesByOne : Prop :=
  ∀ (v : Word) (c : Bool),
    (shiftOut v .ror c).getLsbD 15 = v.getLsbD 0 ∧
    (∀ i, i < 15 → (shiftOut v .ror c).getLsbD i = v.getLsbD (i + 1)) ∧
    shiftCarry v .ror = v.getLsbD 0 ∧ shiftCarry v .ror = (shiftOut v .ror c).getLsbD 15 ∧
    (fun u => shiftOut u .ror c)^[16] v = v

/-- R75: RRC shifts the 17-bit value `{C, v}` right by one; the bit put in is C and never SC, and the bit that falls
out goes to SC and not to C. -/
def Obligations.RrcShiftsCarryAndValue : Prop :=
  (∀ (v : Word) (c : Bool),
    (shiftOut v .rrc c).toNat = (c.toNat * 65536 + v.toNat) / 2 ∧
    (shiftCarry v .rrc).toNat = (c.toNat * 65536 + v.toNat) % 2) ∧
  ∀ (a : Reg) (s : State) (b : Bool),
    operandAReg a .rrc s = shiftOut (s.readReg a) .rrc s.flags.c ∧
    operandAReg a .rrc (s.setSc b) = operandAReg a .rrc s ∧
    (runShifter a .rrc s).sc = (s.readReg a).getLsbD 0 ∧ (runShifter a .rrc s).flags = s.flags

/-- R80: `ORS Rd, Rd RRC, R0` rotates the ring of Rd and C with period 17 and no smaller one but on the two fixed
points; with Rd = R0, which holds nothing, the carry is lost at once. -/
def Obligations.RrcHasPeriodSeventeen : Prop :=
  ∀ (rd : Reg) (s : State),
    (rd ≠ .r0 → ((rrcOnce rd)^[17] s).readReg rd = s.readReg rd ∧ ((rrcOnce rd)^[17] s).flags.c = s.flags.c ∧
      ∀ k, 0 < k → k < 17 →
        (((rrcOnce rd)^[k] s).readReg rd = s.readReg rd ∧ ((rrcOnce rd)^[k] s).flags.c = s.flags.c ↔
          (s.readReg rd = 0x0000 ∧ s.flags.c = false) ∨ (s.readReg rd = 0xFFFF ∧ s.flags.c = true))) ∧
    (rrcOnce .r0 s).readReg .r0 = 0 ∧ (rrcOnce .r0 s).flags.c = false

/-- R76: every type-1 instruction of opcodes 0 to 6 writes the shifter's carry to SC, whatever ldcc is. -/
def Obligations.TypeOneAlwaysWritesSc : Prop :=
  ∀ (i : Instr) (s : State) (a : Reg) (h : ShiftCode), shifted i = some (a, h) →
    ∃ t, exec i s = .next t ∧ t.sc = (if h = .none then false else (s.readReg a).getLsbD 0)

/-- R77 (the spec's decision D6): type-2 instructions and branches leave SC unchanged. -/
def Obligations.OtherFormsLeaveSc : Prop :=
  ∀ (i : Instr) (s : State), shifted i = none → ∃ t, exec i s = .next t ∧ t.sc = s.sc

/-! ### Arithmetic -/

/-- R85: the adder's sum, raw carry, overflow, negative and zero, in unbounded numbers. -/
def Obligations.AdderOutputs : Prop :=
  ∀ (a b : Word) (cin : Bool),
    (adder a b cin).sum.toNat = (a.toNat + b.toNat + cin.toNat) % 65536 ∧
    ((adder a b cin).carryOut = true ↔ 65536 ≤ a.toNat + b.toNat + cin.toNat) ∧
    ((adder a b cin).overflow = true ↔
      a.getLsbD 15 = b.getLsbD 15 ∧ (adder a b cin).sum.getLsbD 15 ≠ a.getLsbD 15) ∧
    ((adder a b cin).negative = true ↔ 32768 ≤ (adder a b cin).sum.toNat) ∧
    ((adder a b cin).zero = true ↔ (adder a b cin).sum.toNat = 0)

/-- R93: the raw carry is `sum < a + carry_in` without wraparound; and V records that the exact signed sum does not
fit 16 bits (R92). -/
def Obligations.CarryAndOverflowMeaning : Prop :=
  ∀ (a b : Word) (cin : Bool),
    ((adder a b cin).carryOut = true ↔ (adder a b cin).sum.toNat < a.toNat + cin.toNat) ∧
    (adder a b cin).overflow = outOfRange (a.toInt + b.toInt + cin.toNat)

/-- R90, R91: ldcc gates all four flags, with the carry inverted for SUB and SBC; the result is always written, lost
in slot 0, a jump in slot 7. -/
def Obligations.LdccGatesFlagsNeverTheResult : Prop :=
  ∀ (i : Instr) (s : State) (a b : Word) (cin inv : Bool), adderInputs i s = some (a, b, cin, inv) →
    ∃ t, exec i s = .next t ∧
      (setsFlags i = true → t.flags.c = ((adder a b cin).carryOut != inv) ∧ t.flags.v = (adder a b cin).overflow ∧
        t.flags.z = (adder a b cin).zero ∧ t.flags.n = (adder a b cin).negative) ∧
      (setsFlags i = false → t.flags = s.flags) ∧
      ∀ dst, destination i = some dst →
        t.readReg dst = (if dst = .r0 then 0 else (adder a b cin).sum) ∧
        (dst = .r7 → t.pc = (adder a b cin).sum) ∧ (dst ≠ .r7 → t.pc = s.pc)

/-- ADD (R86), both forms: result, flags and frame. -/
def Obligations.AddResultFlagsFrame : Prop :=
  ∀ (ldcc : Bool) (dst srcA : Reg) (s : State),
    (∀ srcB sh, ∃ t, exec (.addReg ldcc dst srcA srcB sh) s = .next t ∧
      AddLeaves ldcc dst (operandAReg srcA sh s) (s.readReg srcB) s t ∧ t.sc = shiftCarry (s.readReg srcA) sh) ∧
    ∀ imm, ∃ t, exec (.addImm ldcc dst srcA imm) s = .next t ∧
      AddLeaves ldcc dst (s.readReg srcA) imm s t ∧ t.sc = s.sc

/-- ADC (R87), both forms: result, flags and frame. -/
def Obligations.AdcResultFlagsFrame : Prop :=
  ∀ (ldcc : Bool) (dst srcA : Reg) (s : State),
    (∀ srcB sh, ∃ t, exec (.adcReg ldcc dst srcA srcB sh) s = .next t ∧
      AdcLeaves ldcc dst (operandAReg srcA sh s) (s.readReg srcB) s t ∧ t.sc = shiftCarry (s.readReg srcA) sh) ∧
    ∀ imm, ∃ t, exec (.adcImm ldcc dst srcA imm) s = .next t ∧
      AdcLeaves ldcc dst (s.readReg srcA) imm s t ∧ t.sc = s.sc

/-- SUB (R88), both forms: result, flags (C is a borrow) and frame. -/
def Obligations.SubResultFlagsFrame : Prop :=
  ∀ (ldcc : Bool) (dst srcA : Reg) (s : State),
    (∀ srcB sh, ∃ t, exec (.subReg ldcc dst srcA srcB sh) s = .next t ∧
      SubLeaves ldcc dst (operandAReg srcA sh s) (s.readReg srcB) s t ∧ t.sc = shiftCarry (s.readReg srcA) sh) ∧
    ∀ imm, ∃ t, exec (.subImm ldcc dst srcA imm) s = .next t ∧
      SubLeaves ldcc dst (s.readReg srcA) imm s t ∧ t.sc = s.sc

/-- SBC (R89), both forms: result, flags (C is a borrow) and frame. -/
def Obligations.SbcResultFlagsFrame : Prop :=
  ∀ (ldcc : Bool) (dst srcA : Reg) (s : State),
    (∀ srcB sh, ∃ t, exec (.sbcReg ldcc dst srcA srcB sh) s = .next t ∧
      SbcLeaves ldcc dst (operandAReg srcA sh s) (s.readReg srcB) s t ∧ t.sc = shiftCarry (s.readReg srcA) sh) ∧
    ∀ imm, ∃ t, exec (.sbcImm ldcc dst srcA imm) s = .next t ∧
      SbcLeaves ldcc dst (s.readReg srcA) imm s t ∧ t.sc = s.sc

/-- R89's corner: SUBS on the low words and then SBCS on the high words subtracts a two-word number. -/
def Obligations.TwoWordSubtraction : Prop :=
  ∀ (dl al bl dh ah bh : Reg) (s t u : State), dl ≠ .r0 → dh ≠ .r0 → dh ≠ dl → ah ≠ dl → bh ≠ dl →
    exec (.subReg true dl al bl .none) s = .next t → exec (.sbcReg true dh ah bh .none) t = .next u →
    ((u.readReg dh).toNat * 65536 + (u.readReg dl).toNat : Int) =
      (((s.readReg ah).toNat * 65536 + (s.readReg al).toNat : Int) -
        ((s.readReg bh).toNat * 65536 + (s.readReg bl).toNat)) % 4294967296

/-! ### Logic -/

/-- R102, R103: the logic unit's flags, with C the SC that the instruction's own shifter has just written, and the
destination written always; and no instruction at all reads the SC that it starts with. -/
def Obligations.LogicFlagsAndDestination : Prop :=
  (∀ (ldcc : Bool) (dst srcA : Reg) (s : State),
    (∀ srcB sh,
      (∃ t, exec (.andReg ldcc dst srcA srcB sh) s = .next t ∧
        WritesOnly dst (operandAReg srcA sh s &&& s.readReg srcB) s t ∧
        t.sc = (if sh = .none then false else (s.readReg srcA).getLsbD 0) ∧
        t.flags = bitwiseFlags ldcc t.sc (operandAReg srcA sh s &&& s.readReg srcB) s) ∧
      ∃ t, exec (.orReg ldcc dst srcA srcB sh) s = .next t ∧
        WritesOnly dst (operandAReg srcA sh s ||| s.readReg srcB) s t ∧
        t.sc = (if sh = .none then false else (s.readReg srcA).getLsbD 0) ∧
        t.flags = bitwiseFlags ldcc t.sc (operandAReg srcA sh s ||| s.readReg srcB) s) ∧
    ∀ imm,
      (∃ t, exec (.andImm ldcc dst srcA imm) s = .next t ∧
        WritesOnly dst (s.readReg srcA &&& imm) s t ∧
        t.flags = bitwiseFlags ldcc false (s.readReg srcA &&& imm) s) ∧
      ∃ t, exec (.orImm ldcc dst srcA imm) s = .next t ∧
        WritesOnly dst (s.readReg srcA ||| imm) s t ∧
        t.flags = bitwiseFlags ldcc false (s.readReg srcA ||| imm) s) ∧
  ∀ (i : Instr) (s : State) (b : Bool), ∃ t t', exec i s = .next t ∧ exec i (s.setSc b) = .next t' ∧
    t'.setSc t.sc = t

/-! ### Load and store -/

/-- R110: the effective address of the two addressing modes wraps at 16 bits, and a base register changes only as the
destination of a load. -/
def Obligations.EffectiveAddressWraps : Prop :=
  ∀ (dst srcA : Reg) (s : State),
    (∀ srcB sh,
      (effectiveAddressReg srcA srcB sh s).toNat =
        ((shiftOut (s.readReg srcA) sh s.flags.c).toNat + (s.readReg srcB).toNat) % 65536 ∧
      (∃ t, exec (.ldReg dst srcA srcB sh) s = .next t ∧ t.flags = s.flags ∧ ∀ q, q ≠ dst → t.readReg q = s.readReg q) ∧
      ∃ t, exec (.stReg dst srcA srcB sh) s = .next t ∧ t.flags = s.flags ∧ ∀ q, t.readReg q = s.readReg q) ∧
    ∀ imm5 : BitVec 5,
      ((effectiveAddressImm srcA (sext5 imm5) s).toNat : Int) = ((s.readReg srcA).toNat + imm5.toInt) % 65536 ∧
      (∃ t, exec (.ldImm dst srcA (sext5 imm5)) s = .next t ∧ t.flags = s.flags ∧
        ∀ q, q ≠ dst → t.readReg q = s.readReg q) ∧
      ∃ t, exec (.stImm dst srcA (sext5 imm5)) s = .next t ∧ t.flags = s.flags ∧ ∀ q, t.readReg q = s.readReg q

/-- LD (R111), both forms: the word at the effective address into dst, and the frame. -/
def Obligations.LoadResultAndFrame : Prop :=
  ∀ (dst srcA : Reg) (s : State),
    (∀ srcB sh, ∃ t, exec (.ldReg dst srcA srcB sh) s = .next t ∧
      WritesOnly dst (s.memRead (effectiveAddressReg srcA srcB sh s)) s t ∧ t.flags = s.flags ∧
      t.sc = shiftCarry (s.readReg srcA) sh) ∧
    ∀ imm, ∃ t, exec (.ldImm dst srcA imm) s = .next t ∧
      WritesOnly dst (s.memRead (effectiveAddressImm srcA imm s)) s t ∧ t.flags = s.flags ∧ t.sc = s.sc

/-- ST (R112), both forms: `x[dst]` into the word at the effective address, and the frame. -/
def Obligations.StoreResultAndFrame : Prop :=
  ∀ (dst srcA : Reg) (s : State),
    (∀ srcB sh, ∃ t, exec (.stReg dst srcA srcB sh) s = .next t ∧
      StoresOnly (effectiveAddressReg srcA srcB sh s) (s.readReg dst) s t ∧ t.sc = shiftCarry (s.readReg srcA) sh) ∧
    ∀ imm, ∃ t, exec (.stImm dst srcA imm) s = .next t ∧
      StoresOnly (effectiveAddressImm srcA imm s) (s.readReg dst) s t ∧ t.sc = s.sc

/-- R113: neither direction of the load/store unit writes C, V, Z or N; the type-1 forms write SC as any type-1
instruction does, with RRC reading C, and the type-2 forms leave it. -/
def Obligations.LoadStoreLeavesFlags : Prop :=
  ∀ (i : Instr) (s : State), (isLoad i || isStore i) = true →
    ∃ t, exec i s = .next t ∧ t.flags = s.flags ∧
      t.sc = (match shifted i with
        | some (a, h) => if h = .none then false else (s.readReg a).getLsbD 0
        | none => s.sc) ∧
      ∀ a, shifted i = some (a, .rrc) → operandAReg a .rrc s = shiftOut (s.readReg a) .rrc s.flags.c

/-! ### Branch -/

/-- R121, R122: BAL is taken in every flag state, BNV in none. -/
def Obligations.BranchAlwaysAndNever : Prop :=
  ∀ (off : Word) (s : State),
    exec (.bal off) s = .next { s with pc := s.pc + off } ∧ exec (.bnv off) s = .next s

/-- R123 to R126: BHI, BLS, BCC, BCS. -/
def Obligations.UnsignedBranches : Prop :=
  ∀ (off : Word) (s : State),
    exec (.bhi off) s = .next (if s.flags.c = false ∧ s.flags.z = false then { s with pc := s.pc + off } else s) ∧
    exec (.bls off) s = .next (if s.flags.c = true ∨ s.flags.z = true then { s with pc := s.pc + off } else s) ∧
    exec (.bcc off) s = .next (if s.flags.c = false then { s with pc := s.pc + off } else s) ∧
    exec (.bcs off) s = .next (if s.flags.c = true then { s with pc := s.pc + off } else s)

/-- R127 to R132: BNE, BEQ, BVC, BVS, BPL, BMI. -/
def Obligations.SingleFlagBranches : Prop :=
  ∀ (off : Word) (s : State),
    exec (.bne off) s = .next (if s.flags.z = false then { s with pc := s.pc + off } else s) ∧
    exec (.beq off) s = .next (if s.flags.z = true then { s with pc := s.pc + off } else s) ∧
    exec (.bvc off) s = .next (if s.flags.v = false then { s with pc := s.pc + off } else s) ∧
    exec (.bvs off) s = .next (if s.flags.v = true then { s with pc := s.pc + off } else s) ∧
    exec (.bpl off) s = .next (if s.flags.n = false then { s with pc := s.pc + off } else s) ∧
    exec (.bmi off) s = .next (if s.flags.n = true then { s with pc := s.pc + off } else s)

/-- R133 to R136: BGE, BLT, BGT, BLE. -/
def Obligations.SignedBranches : Prop :=
  ∀ (off : Word) (s : State),
    exec (.bge off) s = .next (if s.flags.n = s.flags.v then { s with pc := s.pc + off } else s) ∧
    exec (.blt off) s = .next (if s.flags.n ≠ s.flags.v then { s with pc := s.pc + off } else s) ∧
    exec (.bgt off) s =
      .next (if s.flags.n = s.flags.v ∧ s.flags.z = false then { s with pc := s.pc + off } else s) ∧
    exec (.ble off) s =
      .next (if s.flags.n ≠ s.flags.v ∨ s.flags.z = true then { s with pc := s.pc + off } else s)

/-- R137: each odd condition is the complement of the even one below it, for all flag states. -/
def Obligations.OddConditionsComplementEven : Prop :=
  ∀ (k : BitVec 3) (f : Flags),
    taken (Cond.ofBits (k ++ (1 : BitVec 1))) f = !taken (Cond.ofBits (k ++ (0 : BitVec 1))) f

/-- R120: a branch at address A that is taken continues at `(A + 1 + signed(off)) mod 65536`, one not taken at A + 1;
only the pc changes. -/
def Obligations.BranchTarget : Prop :=
  ∀ (s : State) (cond : Cond) (off : Word), branchOf (decode s.fetchWord) = some (cond, off) →
    ∃ t, step s = .next t ∧
      (t.pc.toNat : Int) =
        (if taken cond s.flags then (s.pc.toNat + 1 + off.toInt) % 65536 else (s.pc.toNat + 1) % 65536) ∧
      t = { s with pc := t.pc }

/-- R92 law 6: after `SUBS R0, Ra, Rb` the conditions read as comparisons of Ra with Rb, unsigned and signed. -/
def Obligations.ConditionsCompareAfterSubs : Prop :=
  ∀ (ra rb : Reg) (s : State), ∃ t, exec (.subReg true .r0 ra rb .none) s = .next t ∧
    (taken .hi t.flags = true ↔ (s.readReg rb).toNat < (s.readReg ra).toNat) ∧
    (taken .ls t.flags = true ↔ (s.readReg ra).toNat ≤ (s.readReg rb).toNat) ∧
    (taken .cc t.flags = true ↔ (s.readReg rb).toNat ≤ (s.readReg ra).toNat) ∧
    (taken .cs t.flags = true ↔ (s.readReg ra).toNat < (s.readReg rb).toNat) ∧
    (taken .eq t.flags = true ↔ s.readReg ra = s.readReg rb) ∧
    (taken .ne t.flags = true ↔ s.readReg ra ≠ s.readReg rb) ∧
    (taken .ge t.flags = true ↔ (s.readReg rb).toInt ≤ (s.readReg ra).toInt) ∧
    (taken .lt t.flags = true ↔ (s.readReg ra).toInt < (s.readReg rb).toInt) ∧
    (taken .gt t.flags = true ↔ (s.readReg rb).toInt < (s.readReg ra).toInt) ∧
    (taken .le t.flags = true ↔ (s.readReg ra).toInt ≤ (s.readReg rb).toInt)

/-! ### The step and the whole machine -/

/-- R145: a step reads the word at the pc, increments the pc mod 65536, decodes the word and executes it. -/
def Obligations.StepRunsTheDecodedInstruction : Prop :=
  ∀ (s : State) (i : Instr), decode (s.memRead s.pc) = i →
    step s = exec i { s with pc := BitVec.ofNat 16 (s.pc.toNat + 1) }

/-- R160: no instruction and no step ends in a fault or a refusal. -/
def Obligations.NothingEverStops : Prop :=
  (∀ (i : Instr) (s : State), ∃ t, exec i s = .next t) ∧ (∀ s : State, ∃ t, step s = .next t) ∧
    ∀ (n : Nat) (s : State), Safety.SafeFor n s

/-- R151: a step is the whole machine written as one function on numbers. -/
def Obligations.StepIsTheWholeMachine : Prop :=
  ∀ s : State, step s = .next (wholeStep s)

/-- The memory's canonical form (log entry 3) is kept by every step. -/
def Obligations.StepKeepsMemoryCanonical : Prop :=
  ∀ s t : State, Safety.Inv s → step s = .next t → Safety.Inv t

/-- The memory is in canonical form at reset and after every reset event on a canonical memory. -/
def Obligations.ResetMemoryIsCanonical : Prop :=
  Safety.Inv State.reset ∧ ∀ (o : Config.ResetValues) (s : State), Safety.Inv s → Safety.Inv (s.applyReset o)

/-- R21: memory is written only by ST. -/
def Obligations.OnlyStoresWriteMemory : Prop :=
  ∀ (i : Instr) (s t : State), isStore i = false → exec i s = .next t → t.mem = s.mem

/-- R17: only an arithmetic or logic instruction with ldcc set writes a condition flag. -/
def Obligations.OnlyFlagSettersWriteFlags : Prop :=
  ∀ (i : Instr) (s t : State), setsFlags i = false → exec i s = .next t → t.flags = s.flags

/-- R14: an instruction writes no slot but its destination, and a branch none but the pc. -/
def Obligations.OnlyTheDestinationIsWritten : Prop :=
  ∀ (i : Instr) (s t : State) (q : Reg), destination i ≠ some q → (branchOf i = none ∨ q ≠ .r7) →
    exec i s = .next t → t.readReg q = s.readReg q

/-- R163, R138: control flow changes only by the pc increment, a taken branch, and writes to slot 7. -/
def Obligations.ControlFlowHasThreeSources : Prop :=
  ∀ s t : State, step s = .next t →
    t.pc = s.pc + 1 ∨ (∃ cond off, branchOf (decode s.fetchWord) = some (cond, off) ∧ taken cond s.flags = true ∧
      t.pc = s.pc + 1 + off) ∨ destination (decode s.fetchWord) = some .r7

/-- R33, R39: a step makes one fetch read at the pc and then at most one data access, a read of the word LD loads or
the write of ST, none otherwise; memory changes by that write alone. -/
def Obligations.PortAccessesOfAStep : Prop :=
  ∀ s : State, ∃ t, step s = .next t ∧
    (portAccesses s).head? = some (.read s.pc) ∧ (portAccesses s).length ≤ 2 ∧
    (isLoad (decode s.fetchWord) = true → ∃ ea, portAccesses s = [.read s.pc, .read ea] ∧
      ∀ q, q ≠ .r0 → destination (decode s.fetchWord) = some q → t.readReg q = s.memRead ea) ∧
    (isStore (decode s.fetchWord) = true → ∃ ea v, portAccesses s = [.read s.pc, .write ea v] ∧
      t.memRead ea = v ∧ ∀ a, a ≠ ea → t.memRead a = s.memRead a) ∧
    (isLoad (decode s.fetchWord) = false → isStore (decode s.fetchWord) = false →
      portAccesses s = [.read s.pc] ∧ ∀ a, t.memRead a = s.memRead a)

/-- R36 (3): after any run every word of memory is the last one stored to it, or the initial one if none was. -/
def Obligations.MemoryHoldsTheLastStore : Prop :=
  ∀ (n : Nat) (s t : State), Safety.run n s = .next t →
    ∀ a, t.memRead a = (lastStored (storesOfRun n s) a).getD (s.memRead a)

/-- R38: a store is seen by the next fetch with nothing in between, and a store to its own word does not change what
it does. -/
def Obligations.StoreIsSeenByTheNextFetch : Prop :=
  ∀ (s : State) (ea v : Word), portAccesses s = [.read s.pc, .write ea v] →
    ∃ t, step s = .next t ∧ (t.pc = ea → step t = exec (decode v) t.advancePc) ∧
      step s = exec (decode (s.memRead s.pc)) s.advancePc

/-- R20: no instruction ever observes SC: two runs that start with states equal but for SC stay equal but for SC. -/
def Obligations.NoProgramObservesSc : Prop :=
  ∀ (n : Nat) (s : State) (b : Bool), ∃ t t', Safety.run n s = .next t ∧ Safety.run n (s.setSc b) = .next t' ∧
    t'.setSc t.sc = t

/-- R149 (the spec's decision D11): once the pc stands at a `BAL -1`, in either encoding, the run has ended there and no
further step changes the state; a run has at most one end state; and a run that stands still at another word, here
`ADD R7, R7, #-1`, has none. -/
def Obligations.SelfBranchEndsTheRun : Prop :=
  ∀ s : State,
    (s.memRead s.pc = 0xE0FF ∨ s.memRead s.pc = 0xF0FF → Safety.EndsIn s s ∧ Safety.Still s) ∧
    (∀ t u, Safety.EndsIn s t → Safety.EndsIn s u → t = u) ∧
    (s.memRead s.pc = 0x17FF → Safety.Still s ∧ ∀ t, ¬Safety.EndsIn s t)
end

