-- ==== Sys2Proof/Laws/Decode.lean ====
section
/-! SUPPORT. What every field of an encoded word holds, and that each field's values and bits are inverse. -/

namespace Sys2Proof

/-! ### Values and bits of a field -/

@[simp] theorem Reg.ofBits_bits (r : Reg) : Reg.ofBits r.bits = r := by cases r <;> rfl
@[simp] theorem Reg.bits_ofBits (b : BitVec 3) : (Reg.ofBits b).bits = b := by revert b; decide
@[simp] theorem Opcode.ofBits_bits (o : Opcode) : Opcode.ofBits o.bits = o := by cases o <;> rfl
@[simp] theorem Opcode.bits_ofBits (b : BitVec 3) : (Opcode.ofBits b).bits = b := by revert b; decide
@[simp] theorem ShiftCode.ofBits_bits (h : ShiftCode) : ShiftCode.ofBits h.bits = h := by cases h <;> rfl
@[simp] theorem ShiftCode.bits_ofBits (b : BitVec 2) : (ShiftCode.ofBits b).bits = b := by revert b; decide
@[simp] theorem Cond.ofBits_bits (c : Cond) : Cond.ofBits c.bits = c := by cases c <;> rfl
@[simp] theorem Cond.bits_ofBits (b : BitVec 4) : (Cond.ofBits b).bits = b := by revert b; decide

/-- An immediate of 5 bits is the sign extension of its own field. -/
theorem sext5_setWidth (imm : Word) (h : fitsImm5 imm = true) : sext5 (imm.setWidth 5) = imm := by
  simp only [fitsImm5, Bool.and_eq_true, decide_eq_true_eq] at h
  apply BitVec.eq_of_toInt_eq
  rw [sext5, BitVec.toInt_signExtend_of_le (by omega), BitVec.toInt_setWidth]
  have := BitVec.toInt_eq_toNat_bmod imm
  have hlt := imm.isLt
  simp only [Int.bmod] at *
  omega

/-- An offset of 8 bits is the sign extension of its own field. -/
theorem sext8_setWidth (off : Word) (h : fitsOff8 off = true) : sext8 (off.setWidth 8) = off := by
  simp only [fitsOff8, Bool.and_eq_true, decide_eq_true_eq] at h
  apply BitVec.eq_of_toInt_eq
  rw [sext8, BitVec.toInt_signExtend_of_le (by omega), BitVec.toInt_setWidth]
  have := BitVec.toInt_eq_toNat_bmod off
  have hlt := off.isLt
  simp only [Int.bmod] at *
  omega

@[simp] theorem setWidth_sext5 (f : BitVec 5) : (sext5 f).setWidth 5 = f := by revert f; decide
@[simp] theorem setWidth_sext8 (f : BitVec 8) : (sext8 f).setWidth 8 = f := by revert f; decide
theorem fitsImm5_sext5 (f : BitVec 5) : fitsImm5 (sext5 f) = true := by revert f; decide
theorem fitsOff8_sext8 (f : BitVec 8) : fitsOff8 (sext8 f) = true := by revert f; decide

/-! ### The fields of a type-1 word -/

section
variable (op : Opcode) (l : Bool) (d a b : Reg) (h : ShiftCode)

@[simp] theorem opcodeBits_encodeReg : opcodeBits (encodeReg op l d a b h) = op.bits := by
  simp only [opcodeBits, encodeReg, place]
  ext i hi
  interval_cases i <;> simp
@[simp] theorem typeBit_encodeReg : typeBit (encodeReg op l d a b h) = false := by
  simp [typeBit, encodeReg, place]
@[simp] theorem ldccBit_encodeReg : ldccBit (encodeReg op l d a b h) = l := by
  simp [ldccBit, encodeReg, place]
@[simp] theorem dstBits_encodeReg : dstBits (encodeReg op l d a b h) = d.bits := by
  simp only [dstBits, encodeReg, place]
  ext i hi
  interval_cases i <;> simp
@[simp] theorem srcABits_encodeReg : srcABits (encodeReg op l d a b h) = a.bits := by
  simp only [srcABits, encodeReg, place]
  ext i hi
  interval_cases i <;> simp
@[simp] theorem srcBBits_encodeReg : srcBBits (encodeReg op l d a b h) = b.bits := by
  simp only [srcBBits, encodeReg, place]
  ext i hi
  interval_cases i <;> simp
@[simp] theorem shBits_encodeReg : shBits (encodeReg op l d a b h) = h.bits := by
  simp only [shBits, encodeReg, place]
  ext i hi
  interval_cases i <;> simp

end

/-! ### The fields of a type-2 word -/

section
variable (op : Opcode) (l : Bool) (d a : Reg) (imm : Word)

@[simp] theorem opcodeBits_encodeImm : opcodeBits (encodeImm op l d a imm) = op.bits := by
  simp only [opcodeBits, encodeImm, place]
  ext i hi
  interval_cases i <;> simp
@[simp] theorem typeBit_encodeImm : typeBit (encodeImm op l d a imm) = true := by
  simp [typeBit, encodeImm, place]
@[simp] theorem ldccBit_encodeImm : ldccBit (encodeImm op l d a imm) = l := by
  simp [ldccBit, encodeImm, place]
@[simp] theorem dstBits_encodeImm : dstBits (encodeImm op l d a imm) = d.bits := by
  simp only [dstBits, encodeImm, place]
  ext i hi
  interval_cases i <;> simp
@[simp] theorem srcABits_encodeImm : srcABits (encodeImm op l d a imm) = a.bits := by
  simp only [srcABits, encodeImm, place]
  ext i hi
  interval_cases i <;> simp
@[simp] theorem imm5Bits_encodeImm : imm5Bits (encodeImm op l d a imm) = imm.setWidth 5 := by
  simp only [imm5Bits, encodeImm, place]
  ext i hi
  interval_cases i <;> simp

end

/-! ### The fields of a type-3 word -/

section
variable (c : Cond) (off : Word)

@[simp] theorem opcodeBits_encodeBranch : opcodeBits (encodeBranch c off) = Opcode.branch.bits := by
  simp only [opcodeBits, encodeBranch, place]
  ext i hi
  interval_cases i <;> simp
@[simp] theorem condBits_encodeBranch : condBits (encodeBranch c off) = c.bits := by
  simp only [condBits, encodeBranch, place]
  ext i hi
  interval_cases i <;> simp
@[simp] theorem off8Bits_encodeBranch : off8Bits (encodeBranch c off) = off.setWidth 8 := by
  simp only [off8Bits, encodeBranch, place]
  ext i hi
  interval_cases i <;> simp

end

/-! ### Two words are one when their fields are -/

/-- A word is the or of its type-1 fields. -/
theorem word_eq_reg_fields (w : Word) :
    w = place (opcodeBits w) 13 ||| place (BitVec.ofBool (typeBit w)) 12 ||| place (BitVec.ofBool (ldccBit w)) 11 |||
      place (dstBits w) 8 ||| place (srcABits w) 5 ||| place (srcBBits w) 2 ||| place (shBits w) 0 := by
  simp only [opcodeBits, typeBit, ldccBit, dstBits, srcABits, srcBBits, shBits, place]
  ext i hi
  interval_cases i <;> simp

/-- A word is the or of its type-2 fields. -/
theorem word_eq_imm_fields (w : Word) :
    w = place (opcodeBits w) 13 ||| place (BitVec.ofBool (typeBit w)) 12 ||| place (BitVec.ofBool (ldccBit w)) 11 |||
      place (dstBits w) 8 ||| place (srcABits w) 5 ||| place (imm5Bits w) 0 := by
  simp only [opcodeBits, typeBit, ldccBit, dstBits, srcABits, imm5Bits, place]
  ext i hi
  interval_cases i <;> simp

/-- A word is the or of its type-3 fields and bit 12. -/
theorem word_eq_branch_fields (w : Word) :
    w = place (opcodeBits w) 13 ||| place (BitVec.ofBool (typeBit w)) 12 ||| place (condBits w) 8 |||
      place (off8Bits w) 0 := by
  simp only [opcodeBits, typeBit, condBits, off8Bits, place]
  ext i hi
  interval_cases i <;> simp

end Sys2Proof
end

