-- ==== Sys2Proof/Laws/State.lean ====
section
/-! SUPPORT. One lemma per field per update of the state, so that no proof unfolds a record update, and what a
register write does to every register read. -/

namespace Sys2Proof.Machine

open Sys2Proof

@[simp] theorem State.setPc_r1 (v : Word) (s : State) : (s.setPc v).r1 = s.r1 := rfl
@[simp] theorem State.setPc_r2 (v : Word) (s : State) : (s.setPc v).r2 = s.r2 := rfl
@[simp] theorem State.setPc_r3 (v : Word) (s : State) : (s.setPc v).r3 = s.r3 := rfl
@[simp] theorem State.setPc_r4 (v : Word) (s : State) : (s.setPc v).r4 = s.r4 := rfl
@[simp] theorem State.setPc_r5 (v : Word) (s : State) : (s.setPc v).r5 = s.r5 := rfl
@[simp] theorem State.setPc_r6 (v : Word) (s : State) : (s.setPc v).r6 = s.r6 := rfl
@[simp] theorem State.setPc_pc (v : Word) (s : State) : (s.setPc v).pc = v := rfl
@[simp] theorem State.setPc_flags (v : Word) (s : State) : (s.setPc v).flags = s.flags := rfl
@[simp] theorem State.setPc_sc (v : Word) (s : State) : (s.setPc v).sc = s.sc := rfl
@[simp] theorem State.setPc_mem (v : Word) (s : State) : (s.setPc v).mem = s.mem := rfl

@[simp] theorem State.advancePc_r1 (s : State) : (s.advancePc).r1 = s.r1 := rfl
@[simp] theorem State.advancePc_r2 (s : State) : (s.advancePc).r2 = s.r2 := rfl
@[simp] theorem State.advancePc_r3 (s : State) : (s.advancePc).r3 = s.r3 := rfl
@[simp] theorem State.advancePc_r4 (s : State) : (s.advancePc).r4 = s.r4 := rfl
@[simp] theorem State.advancePc_r5 (s : State) : (s.advancePc).r5 = s.r5 := rfl
@[simp] theorem State.advancePc_r6 (s : State) : (s.advancePc).r6 = s.r6 := rfl
@[simp] theorem State.advancePc_pc (s : State) : (s.advancePc).pc = s.pc + 1 := rfl
@[simp] theorem State.advancePc_flags (s : State) : (s.advancePc).flags = s.flags := rfl
@[simp] theorem State.advancePc_sc (s : State) : (s.advancePc).sc = s.sc := rfl
@[simp] theorem State.advancePc_mem (s : State) : (s.advancePc).mem = s.mem := rfl

@[simp] theorem State.updateFlags_r1 (l : Bool) (g : Flags) (s : State) : (s.updateFlags l g).r1 = s.r1 := rfl
@[simp] theorem State.updateFlags_r2 (l : Bool) (g : Flags) (s : State) : (s.updateFlags l g).r2 = s.r2 := rfl
@[simp] theorem State.updateFlags_r3 (l : Bool) (g : Flags) (s : State) : (s.updateFlags l g).r3 = s.r3 := rfl
@[simp] theorem State.updateFlags_r4 (l : Bool) (g : Flags) (s : State) : (s.updateFlags l g).r4 = s.r4 := rfl
@[simp] theorem State.updateFlags_r5 (l : Bool) (g : Flags) (s : State) : (s.updateFlags l g).r5 = s.r5 := rfl
@[simp] theorem State.updateFlags_r6 (l : Bool) (g : Flags) (s : State) : (s.updateFlags l g).r6 = s.r6 := rfl
@[simp] theorem State.updateFlags_pc (l : Bool) (g : Flags) (s : State) : (s.updateFlags l g).pc = s.pc := rfl
@[simp] theorem State.updateFlags_flags (l : Bool) (g : Flags) (s : State) : (s.updateFlags l g).flags = bif l then g else s.flags := rfl
@[simp] theorem State.updateFlags_sc (l : Bool) (g : Flags) (s : State) : (s.updateFlags l g).sc = s.sc := rfl
@[simp] theorem State.updateFlags_mem (l : Bool) (g : Flags) (s : State) : (s.updateFlags l g).mem = s.mem := rfl

@[simp] theorem State.setSc_r1 (b : Bool) (s : State) : (s.setSc b).r1 = s.r1 := rfl
@[simp] theorem State.setSc_r2 (b : Bool) (s : State) : (s.setSc b).r2 = s.r2 := rfl
@[simp] theorem State.setSc_r3 (b : Bool) (s : State) : (s.setSc b).r3 = s.r3 := rfl
@[simp] theorem State.setSc_r4 (b : Bool) (s : State) : (s.setSc b).r4 = s.r4 := rfl
@[simp] theorem State.setSc_r5 (b : Bool) (s : State) : (s.setSc b).r5 = s.r5 := rfl
@[simp] theorem State.setSc_r6 (b : Bool) (s : State) : (s.setSc b).r6 = s.r6 := rfl
@[simp] theorem State.setSc_pc (b : Bool) (s : State) : (s.setSc b).pc = s.pc := rfl
@[simp] theorem State.setSc_flags (b : Bool) (s : State) : (s.setSc b).flags = s.flags := rfl
@[simp] theorem State.setSc_sc (b : Bool) (s : State) : (s.setSc b).sc = b := rfl
@[simp] theorem State.setSc_mem (b : Bool) (s : State) : (s.setSc b).mem = s.mem := rfl

@[simp] theorem State.memWrite_r1 (a v : Word) (s : State) : (s.memWrite a v).r1 = s.r1 := rfl
@[simp] theorem State.memWrite_r2 (a v : Word) (s : State) : (s.memWrite a v).r2 = s.r2 := rfl
@[simp] theorem State.memWrite_r3 (a v : Word) (s : State) : (s.memWrite a v).r3 = s.r3 := rfl
@[simp] theorem State.memWrite_r4 (a v : Word) (s : State) : (s.memWrite a v).r4 = s.r4 := rfl
@[simp] theorem State.memWrite_r5 (a v : Word) (s : State) : (s.memWrite a v).r5 = s.r5 := rfl
@[simp] theorem State.memWrite_r6 (a v : Word) (s : State) : (s.memWrite a v).r6 = s.r6 := rfl
@[simp] theorem State.memWrite_pc (a v : Word) (s : State) : (s.memWrite a v).pc = s.pc := rfl
@[simp] theorem State.memWrite_flags (a v : Word) (s : State) : (s.memWrite a v).flags = s.flags := rfl
@[simp] theorem State.memWrite_sc (a v : Word) (s : State) : (s.memWrite a v).sc = s.sc := rfl
@[simp] theorem State.memWrite_mem (a v : Word) (s : State) : (s.memWrite a v).mem = s.mem.write a v := rfl

/-! A register write touches neither the flags, nor SC, nor memory. -/

@[simp] theorem State.writeReg_flags (r : Reg) (v : Word) (s : State) : (s.writeReg r v).flags = s.flags := by
  cases r <;> rfl
@[simp] theorem State.writeReg_sc (r : Reg) (v : Word) (s : State) : (s.writeReg r v).sc = s.sc := by
  cases r <;> rfl
@[simp] theorem State.writeReg_mem (r : Reg) (v : Word) (s : State) : (s.writeReg r v).mem = s.mem := by
  cases r <;> rfl

/-! Register reads by slot. -/

@[simp] theorem State.readReg_r0 (s : State) : s.readReg .r0 = 0 := rfl
@[simp] theorem State.readReg_r1 (s : State) : s.readReg .r1 = s.r1 := rfl
@[simp] theorem State.readReg_r2 (s : State) : s.readReg .r2 = s.r2 := rfl
@[simp] theorem State.readReg_r3 (s : State) : s.readReg .r3 = s.r3 := rfl
@[simp] theorem State.readReg_r4 (s : State) : s.readReg .r4 = s.r4 := rfl
@[simp] theorem State.readReg_r5 (s : State) : s.readReg .r5 = s.r5 := rfl
@[simp] theorem State.readReg_r6 (s : State) : s.readReg .r6 = s.r6 := rfl
@[simp] theorem State.readReg_r7 (s : State) : s.readReg .r7 = s.pc := rfl

/-- A register write is read back, but in slot 0, which keeps reading 0. -/
theorem State.readReg_writeReg_self (r : Reg) (v : Word) (s : State) :
    (s.writeReg r v).readReg r = if r = .r0 then 0 else v := by
  cases r <;> rfl

/-- A register write leaves every other slot. -/
theorem State.readReg_writeReg_of_ne (r q : Reg) (v : Word) (s : State) (h : q ≠ r) :
    (s.writeReg r v).readReg q = s.readReg q := by
  cases r <;> cases q <;> first | rfl | exact absurd rfl h

/-- The pc after a register write. -/
theorem State.writeReg_pc (r : Reg) (v : Word) (s : State) :
    (s.writeReg r v).pc = if r = .r7 then v else s.pc := by
  cases r <;> rfl

@[simp] theorem State.readReg_updateFlags (l : Bool) (g : Flags) (q : Reg) (s : State) : (s.updateFlags l g).readReg q = s.readReg q := by
  cases q <;> rfl
@[simp] theorem State.readReg_setSc (b : Bool) (q : Reg) (s : State) : (s.setSc b).readReg q = s.readReg q := by
  cases q <;> rfl
@[simp] theorem State.readReg_memWrite (a v : Word) (q : Reg) (s : State) : (s.memWrite a v).readReg q = s.readReg q := by
  cases q <;> rfl

/-! Memory reads under updates that leave memory. -/

/-- A memory read sees the memory only. -/
theorem State.memRead_congr (s t : State) (h : s.mem = t.mem) (a : Word) : s.memRead a = t.memRead a := by
  simp [State.memRead, h]
@[simp] theorem State.memRead_writeReg (r : Reg) (v a : Word) (s : State) : (s.writeReg r v).memRead a = s.memRead a :=
  State.memRead_congr _ _ (State.writeReg_mem r v s) a
@[simp] theorem State.memRead_setPc (v a : Word) (s : State) : (s.setPc v).memRead a = s.memRead a := rfl
@[simp] theorem State.memRead_advancePc (a : Word) (s : State) : s.advancePc.memRead a = s.memRead a := rfl
@[simp] theorem State.memRead_updateFlags (l : Bool) (g : Flags) (a : Word) (s : State) :
    (s.updateFlags l g).memRead a = s.memRead a := rfl
@[simp] theorem State.memRead_setSc (b : Bool) (a : Word) (s : State) : (s.setSc b).memRead a = s.memRead a := rfl

end Sys2Proof.Machine
end

