-- ==== Sys2Proof/Laws/Memory.lean ====
section
/-! SUPPORT. The laws of memory: what a read gives after a write, and that every memory operation keeps the canonical
form. -/

namespace Sys2Proof.Machine

open Sys2Proof

/-! ### Reads by address number -/

theorem Memory.readAt_erase_self (m : Memory) (a : Nat) : (m.erase a).readAt a = Config.unlistedWord := by
  induction m with
  | nil => rfl
  | cons c m ih =>
    by_cases h : c.1 = a
    · simpa [Memory.erase, h] using ih
    · simpa [Memory.erase, h, Memory.readAt] using ih

theorem Memory.readAt_erase_of_ne (m : Memory) (a b : Nat) (hb : b ≠ a) : (m.erase a).readAt b = m.readAt b := by
  induction m with
  | nil => rfl
  | cons c m ih =>
    by_cases h : c.1 = a
    · have : c.1 ≠ b := fun e => hb (e.symm.trans h)
      simpa [Memory.erase, h, Memory.readAt, this, hb.symm] using ih
    · by_cases hc : c.1 = b <;> simp_all [Memory.erase, Memory.readAt]

theorem Memory.readAt_insert (m : Memory) (a b : Nat) (v : Word) (h : ∀ c ∈ m, c.1 ≠ a) :
    (Memory.insert a v m).readAt b = if a = b then v else m.readAt b := by
  induction m with
  | nil => rfl
  | cons c m ih =>
    have hm : ∀ c ∈ m, c.1 ≠ a := fun d hd => h d (List.mem_cons_of_mem _ hd)
    by_cases hlt : c.1 < a
    · by_cases hb : c.1 = b
      · have : a ≠ b := fun e => h c List.mem_cons_self (hb.trans e.symm)
        rw [Memory.insert, if_pos hlt]
        simp [Memory.readAt, hb, this]
      · simp [Memory.insert, hlt, Memory.readAt, hb, ih hm]
    · simp [Memory.insert, hlt, Memory.readAt]

theorem Memory.ne_of_mem_erase (m : Memory) (a : Nat) : ∀ c ∈ m.erase a, c.1 ≠ a := by
  intro c hc
  simpa using (List.mem_filter.mp hc).2

/-- Everything a write does to a read, whatever the list is. -/
theorem Memory.readAt_writeAt (m : Memory) (a b : Nat) (v : Word) :
    (m.writeAt a v).readAt b = if a = b then v else m.readAt b := by
  unfold Memory.writeAt
  by_cases hab : a = b
  · subst hab
    split
    · simp [Memory.readAt_erase_self, *]
    · simp [Memory.readAt_insert _ _ _ _ (Memory.ne_of_mem_erase m a)]
  · split
    · rw [Memory.readAt_erase_of_ne m a b (Ne.symm hab)]
    · simp [Memory.readAt_insert _ _ _ _ (Memory.ne_of_mem_erase m a), hab,
        Memory.readAt_erase_of_ne m a b (Ne.symm hab)]

/-! ### Reads by Word -/

/-- Everything a write does to a read of a Word address. -/
theorem Memory.read_write (m : Memory) (a b v : Word) : (m.write a v).read b = if a = b then v else m.read b := by
  simp [Memory.read, Memory.write, Memory.readAt_writeAt, BitVec.toNat_inj]

/-- Everything `MemWrite` does to `MemRead`. -/
theorem State.memRead_memWrite (a b v : Word) (s : State) :
    (s.memWrite a v).memRead b = if a = b then v else s.memRead b :=
  Memory.read_write s.mem a b v

/-! ### The canonical form -/

theorem Memory.wf_nil : Memory.wf [] := by simp [Memory.wf]

theorem Memory.wf_erase (m : Memory) (a : Nat) (h : m.wf) : (m.erase a).wf :=
  ⟨h.1.filter _, fun c hc => h.2 c (List.mem_filter.mp hc).1⟩

theorem Memory.mem_insert (m : Memory) (a : Nat) (v : Word) (d : Cell) :
    d ∈ Memory.insert a v m ↔ d = (a, v) ∨ d ∈ m := by
  induction m with
  | nil => simp [Memory.insert]
  | cons c m ih =>
    by_cases hlt : c.1 < a
    · simp only [Memory.insert, hlt, if_true, List.mem_cons, ih]
      tauto
    · simp [Memory.insert, hlt]

theorem Memory.pairwise_insert (m : Memory) (a : Nat) (v : Word) (hs : m.Pairwise (fun x y => x.1 < y.1))
    (hne : ∀ c ∈ m, c.1 ≠ a) : (Memory.insert a v m).Pairwise (fun x y => x.1 < y.1) := by
  induction m with
  | nil => simp [Memory.insert]
  | cons c m ih =>
    obtain ⟨hc, hm⟩ := List.pairwise_cons.mp hs
    by_cases hlt : c.1 < a
    · simp only [Memory.insert, hlt, if_true, List.pairwise_cons]
      refine ⟨fun d hd => ?_, ih hm fun d hd => hne d (List.mem_cons_of_mem _ hd)⟩
      rcases (Memory.mem_insert m a v d).mp hd with rfl | hd
      · exact hlt
      · exact hc d hd
    · have hac : a < c.1 := lt_of_le_of_ne (not_lt.mp hlt) (hne c List.mem_cons_self).symm
      simp only [Memory.insert, hlt, if_false, List.pairwise_cons]
      refine ⟨fun d hd => ?_, hc, hm⟩
      rcases List.mem_cons.mp hd with rfl | hd
      · exact hac
      · exact hac.trans (hc d hd)

/-- A write to an address of the address space keeps the canonical form. -/
theorem Memory.wf_writeAt (m : Memory) (a : Nat) (v : Word) (h : m.wf) (ha : a < Config.memWords) :
    (m.writeAt a v).wf := by
  unfold Memory.writeAt
  split
  · exact Memory.wf_erase m a h
  · refine ⟨Memory.pairwise_insert _ a v (Memory.wf_erase m a h).1 (Memory.ne_of_mem_erase m a), fun c hc => ?_⟩
    rcases (Memory.mem_insert _ a v c).mp hc with rfl | hc
    · exact ⟨ha, by assumption⟩
    · exact (Memory.wf_erase m a h).2 c hc

/-- Every write the machine can make keeps the canonical form. -/
theorem Memory.wf_write (m : Memory) (a v : Word) (h : m.wf) : (m.write a v).wf :=
  Memory.wf_writeAt m a.toNat v h a.isLt

theorem Memory.wf_ofWordsFrom (a : Nat) (ws : List Word) (h : a + ws.length ≤ Config.memWords) :
    (Memory.ofWordsFrom a ws).wf := by
  induction ws generalizing a with
  | nil => exact Memory.wf_nil
  | cons w ws ih =>
    rw [List.length_cons] at h
    exact Memory.wf_writeAt _ a w (ih (a + 1) (by omega)) (by omega)

/-- A read of a loaded list of words. -/
theorem Memory.readAt_ofWordsFrom (a b : Nat) (ws : List Word) :
    (Memory.ofWordsFrom a ws).readAt b =
      if a ≤ b then ws.getD (b - a) Config.unlistedWord else Config.unlistedWord := by
  induction ws generalizing a with
  | nil => simp [Memory.ofWordsFrom, Memory.readAt]
  | cons w ws ih =>
    rw [Memory.ofWordsFrom, Memory.readAt_writeAt, ih]
    by_cases hab : a = b
    · simp [hab]
    · by_cases hle : a ≤ b
      · have h1 : a + 1 ≤ b := by omega
        have h2 : b - a = b - (a + 1) + 1 := by omega
        simp [hab, hle, h1, h2]
      · have h1 : ¬ a + 1 ≤ b := by omega
        simp [hab, hle, h1]

/-- `withFetchWord`'s store and every other store keep the canonical form. -/
theorem State.wf_memWrite (a v : Word) (s : State) (h : s.mem.wf) : (s.memWrite a v).mem.wf :=
  Memory.wf_write s.mem a v h

end Sys2Proof.Machine
end

