-- ==== Sys2Proof/Laws/Ops.lean ====
section
/-! SUPPORT. One lemma per effect of each shared operation of the meanings, so that a proof about an instruction cites
it and does not unfold the operation. -/

namespace Sys2Proof.Machine

open Sys2Proof

/-! ### The shifter's write of SC -/

@[simp] theorem runShifter_sc (a : Reg) (h : ShiftCode) (s : State) :
    (runShifter a h s).sc = shiftCarry (s.readReg a) h := rfl
@[simp] theorem runShifter_pc (a : Reg) (h : ShiftCode) (s : State) : (runShifter a h s).pc = s.pc := rfl
@[simp] theorem runShifter_flags (a : Reg) (h : ShiftCode) (s : State) : (runShifter a h s).flags = s.flags := rfl
@[simp] theorem runShifter_mem (a : Reg) (h : ShiftCode) (s : State) : (runShifter a h s).mem = s.mem := rfl
@[simp] theorem runShifter_readReg (a q : Reg) (h : ShiftCode) (s : State) :
    (runShifter a h s).readReg q = s.readReg q := State.readReg_setSc _ q s
@[simp] theorem runShifter_memRead (a : Reg) (h : ShiftCode) (x : Word) (s : State) :
    (runShifter a h s).memRead x = s.memRead x := rfl

/-- The bit shifted out, by shift code. -/
theorem shiftCarry_eq (v : Word) (h : ShiftCode) : shiftCarry v h = if h = .none then false else v.getLsbD 0 := by
  cases h <;> rfl

/-! ### The end of an arithmetic instruction -/

section
variable (l : Bool) (dst : Reg) (r : AdderOut) (inv : Bool) (s : State)

@[simp] theorem finishArith_flags :
    (finishArith l dst r inv s).flags = bif l then adderFlags r inv else s.flags := by simp [finishArith]
@[simp] theorem finishArith_sc : (finishArith l dst r inv s).sc = s.sc := by simp [finishArith]
@[simp] theorem finishArith_mem : (finishArith l dst r inv s).mem = s.mem := by simp [finishArith]
@[simp] theorem finishArith_memRead (a : Word) : (finishArith l dst r inv s).memRead a = s.memRead a := by
  simp [finishArith]
theorem finishArith_readReg_dst : (finishArith l dst r inv s).readReg dst = if dst = .r0 then 0 else r.sum :=
  State.readReg_writeReg_self dst r.sum _
theorem finishArith_readReg_of_ne (q : Reg) (h : q ≠ dst) :
    (finishArith l dst r inv s).readReg q = s.readReg q := by
  simp [finishArith, State.readReg_writeReg_of_ne _ _ _ _ h]

end

/-! ### The end of a logic instruction -/

section
variable (l : Bool) (dst : Reg) (res : Word) (carry : Bool) (s : State)

@[simp] theorem finishLogic_flags :
    (finishLogic l dst res carry s).flags = bif l then logicFlags res carry else s.flags := by simp [finishLogic]
@[simp] theorem finishLogic_sc : (finishLogic l dst res carry s).sc = s.sc := by simp [finishLogic]
@[simp] theorem finishLogic_mem : (finishLogic l dst res carry s).mem = s.mem := by simp [finishLogic]
@[simp] theorem finishLogic_memRead (a : Word) : (finishLogic l dst res carry s).memRead a = s.memRead a := by
  simp [finishLogic]
theorem finishLogic_readReg_dst : (finishLogic l dst res carry s).readReg dst = if dst = .r0 then 0 else res :=
  State.readReg_writeReg_self dst res _
theorem finishLogic_readReg_of_ne (q : Reg) (h : q ≠ dst) :
    (finishLogic l dst res carry s).readReg q = s.readReg q := by
  simp [finishLogic, State.readReg_writeReg_of_ne _ _ _ _ h]

end

/-! ### Load, store, branch -/

@[simp] theorem loadFrom_flags (ea : Word) (dst : Reg) (s : State) : (loadFrom ea dst s).flags = s.flags := by
  simp [loadFrom]
@[simp] theorem loadFrom_sc (ea : Word) (dst : Reg) (s : State) : (loadFrom ea dst s).sc = s.sc := by simp [loadFrom]
@[simp] theorem loadFrom_mem (ea : Word) (dst : Reg) (s : State) : (loadFrom ea dst s).mem = s.mem := by
  simp [loadFrom]
@[simp] theorem loadFrom_memRead (ea a : Word) (dst : Reg) (s : State) :
    (loadFrom ea dst s).memRead a = s.memRead a := by simp [loadFrom]
theorem loadFrom_readReg_dst (ea : Word) (dst : Reg) (s : State) :
    (loadFrom ea dst s).readReg dst = if dst = .r0 then 0 else s.memRead ea := State.readReg_writeReg_self _ _ s
theorem loadFrom_readReg_of_ne (ea : Word) (dst q : Reg) (s : State) (h : q ≠ dst) :
    (loadFrom ea dst s).readReg q = s.readReg q := State.readReg_writeReg_of_ne _ _ _ _ h

@[simp] theorem storeTo_flags (ea : Word) (dst : Reg) (s : State) : (storeTo ea dst s).flags = s.flags := rfl
@[simp] theorem storeTo_sc (ea : Word) (dst : Reg) (s : State) : (storeTo ea dst s).sc = s.sc := rfl
@[simp] theorem storeTo_mem (ea : Word) (dst : Reg) (s : State) :
    (storeTo ea dst s).mem = s.mem.write ea (s.readReg dst) := rfl
@[simp] theorem storeTo_readReg (ea : Word) (dst q : Reg) (s : State) : (storeTo ea dst s).readReg q = s.readReg q :=
  State.readReg_memWrite _ _ q s
theorem storeTo_memRead (ea a : Word) (dst : Reg) (s : State) :
    (storeTo ea dst s).memRead a = if ea = a then s.readReg dst else s.memRead a := State.memRead_memWrite _ _ _ s

/-- A branch changes the pc alone. -/
theorem branchIf_eq (c : Cond) (off : Word) (s : State) :
    branchIf c off s = { s with pc := bif taken c s.flags then s.pc + off else s.pc } := by
  unfold branchIf
  cases taken c s.flags <;> rfl
@[simp] theorem branchIf_flags (c : Cond) (off : Word) (s : State) : (branchIf c off s).flags = s.flags := by
  simp [branchIf_eq]
@[simp] theorem branchIf_sc (c : Cond) (off : Word) (s : State) : (branchIf c off s).sc = s.sc := by simp [branchIf_eq]
@[simp] theorem branchIf_mem (c : Cond) (off : Word) (s : State) : (branchIf c off s).mem = s.mem := by
  simp [branchIf_eq]
theorem branchIf_readReg_of_ne (c : Cond) (off : Word) (q : Reg) (s : State) (h : q ≠ .r7) :
    (branchIf c off s).readReg q = s.readReg q := by
  cases q <;> first | exact absurd rfl h | simp [branchIf_eq]

end Sys2Proof.Machine
end

