-- ==== Sys2Proof/Laws/PerInstr.lean ====
section
/-! SUPPORT. Per instruction: the family `OpcodeField`, one lemma per constructor of Instr. -/

namespace Sys2Proof.Laws.OpcodeField

open Sys2Proof

/-- The operation of an instruction (spec/30_encoding.md R52). -/
def operation : Instr → Opcode
  | .addReg _ _ _ _ _ => .add
  | .addImm _ _ _ _ => .add
  | .adcReg _ _ _ _ _ => .adc
  | .adcImm _ _ _ _ => .adc
  | .subReg _ _ _ _ _ => .sub
  | .subImm _ _ _ _ => .sub
  | .sbcReg _ _ _ _ _ => .sbc
  | .sbcImm _ _ _ _ => .sbc
  | .andReg _ _ _ _ _ => .and
  | .andImm _ _ _ _ => .and
  | .orReg _ _ _ _ _ => .or
  | .orImm _ _ _ _ => .or
  | .ldReg _ _ _ _ => .loadStore
  | .ldImm _ _ _ => .loadStore
  | .stReg _ _ _ _ => .loadStore
  | .stImm _ _ _ => .loadStore
  | .bal _ => .branch
  | .bnv _ => .branch
  | .bhi _ => .branch
  | .bls _ => .branch
  | .bcc _ => .branch
  | .bcs _ => .branch
  | .bne _ => .branch
  | .beq _ => .branch
  | .bvc _ => .branch
  | .bvs _ => .branch
  | .bpl _ => .branch
  | .bmi _ => .branch
  | .bge _ => .branch
  | .blt _ => .branch
  | .bgt _ => .branch
  | .ble _ => .branch

/-- The encoded word's opcode field selects the instruction's operation. -/
def Statement (i : Instr) : Prop := Opcode.ofBits (opcodeBits (encode i)) = operation i

theorem addReg (a b c d e) : Statement (.addReg a b c d e) := by simp [Statement, encode, operation]
theorem addImm (a b c d) : Statement (.addImm a b c d) := by simp [Statement, encode, operation]
theorem adcReg (a b c d e) : Statement (.adcReg a b c d e) := by simp [Statement, encode, operation]
theorem adcImm (a b c d) : Statement (.adcImm a b c d) := by simp [Statement, encode, operation]
theorem subReg (a b c d e) : Statement (.subReg a b c d e) := by simp [Statement, encode, operation]
theorem subImm (a b c d) : Statement (.subImm a b c d) := by simp [Statement, encode, operation]
theorem sbcReg (a b c d e) : Statement (.sbcReg a b c d e) := by simp [Statement, encode, operation]
theorem sbcImm (a b c d) : Statement (.sbcImm a b c d) := by simp [Statement, encode, operation]
theorem andReg (a b c d e) : Statement (.andReg a b c d e) := by simp [Statement, encode, operation]
theorem andImm (a b c d) : Statement (.andImm a b c d) := by simp [Statement, encode, operation]
theorem orReg (a b c d e) : Statement (.orReg a b c d e) := by simp [Statement, encode, operation]
theorem orImm (a b c d) : Statement (.orImm a b c d) := by simp [Statement, encode, operation]
theorem ldReg (a b c d) : Statement (.ldReg a b c d) := by simp [Statement, encode, operation]
theorem ldImm (a b c) : Statement (.ldImm a b c) := by simp [Statement, encode, operation]
theorem stReg (a b c d) : Statement (.stReg a b c d) := by simp [Statement, encode, operation]
theorem stImm (a b c) : Statement (.stImm a b c) := by simp [Statement, encode, operation]
theorem bal (a) : Statement (.bal a) := by simp [Statement, encode, operation]
theorem bnv (a) : Statement (.bnv a) := by simp [Statement, encode, operation]
theorem bhi (a) : Statement (.bhi a) := by simp [Statement, encode, operation]
theorem bls (a) : Statement (.bls a) := by simp [Statement, encode, operation]
theorem bcc (a) : Statement (.bcc a) := by simp [Statement, encode, operation]
theorem bcs (a) : Statement (.bcs a) := by simp [Statement, encode, operation]
theorem bne (a) : Statement (.bne a) := by simp [Statement, encode, operation]
theorem beq (a) : Statement (.beq a) := by simp [Statement, encode, operation]
theorem bvc (a) : Statement (.bvc a) := by simp [Statement, encode, operation]
theorem bvs (a) : Statement (.bvs a) := by simp [Statement, encode, operation]
theorem bpl (a) : Statement (.bpl a) := by simp [Statement, encode, operation]
theorem bmi (a) : Statement (.bmi a) := by simp [Statement, encode, operation]
theorem bge (a) : Statement (.bge a) := by simp [Statement, encode, operation]
theorem blt (a) : Statement (.blt a) := by simp [Statement, encode, operation]
theorem bgt (a) : Statement (.bgt a) := by simp [Statement, encode, operation]
theorem ble (a) : Statement (.ble a) := by simp [Statement, encode, operation]

end Sys2Proof.Laws.OpcodeField
end

