-- ==== Sys2Proof/Laws/Run.lean ====
section
/-! SUPPORT. Runs of several steps, one step at a time and put together, and the fixed points of the step. -/

namespace Sys2Proof.Safety

open Sys2Proof Sys2Proof.Machine

@[simp] theorem run_zero (s : State) : run 0 s = .next s := rfl

/-- A run of `n + 1` steps goes on from the state the first step answers. -/
theorem run_succ_of_next (n : Nat) (s t : State) (h : step s = .next t) : run (n + 1) s = run n t := by
  rw [run, h]

/-- The host's run of the machine is this run. -/
theorem core_run_eq_run (n : Nat) (s : State) : Host.Core.run Sys2Proof.core n s = run n s := by
  induction n generalizing s with
  | zero => rfl
  | succ n ih =>
    obtain ⟨o, ho⟩ : ∃ o, Sys2Proof.core.step s = o := ⟨_, rfl⟩
    have hs : step s = o := ho
    simp only [Host.Core.run, run, ho, hs]
    cases o with
    | next t => exact ih t
    | fault r => rfl
    | refused r => rfl

/-- A run of `m + n` steps is a run of `n` steps from the state that the first `m` answer. -/
theorem run_add_of_next (m n : Nat) (s t : State) (h : run m s = .next t) : run (m + n) s = run n t := by
  induction m generalizing s with
  | zero => cases h; rw [Nat.zero_add]
  | succ m ih =>
    rw [Nat.succ_add]
    rw [run] at h ⊢
    cases hs : step s with
    | next u => rw [hs] at h; exact ih u h
    | fault r => rw [hs] at h; cases h
    | refused r => rw [hs] at h; cases h

/-- A state that a step maps to itself is changed by no further step. -/
theorem still_of_fixed (s : State) (h : step s = .next s) : Still s := by
  intro n
  induction n with
  | zero => rfl
  | succ n ih => rw [run_succ_of_next n s s h, ih]

end Sys2Proof.Safety
end

