-- ==== Sys2Proof/Tests/Slice0.lean ====
section
/-! SUPPORT. The model's own tests.  Every expected value is the spec's: the words and vectors of
spec/95_test_vectors.md (named by their ids), or a word written out from the field tables of spec/30_encoding.md.
The last part shows that the hypotheses of the obligations can be met. -/

namespace Sys2Proof.Tests

open Sys2Proof Sys2Proof.Machine Sys2Proof.Stated

/-! ### WellFormed: an ill-formed term for each check -/

theorem test_wf_refuses_imm_16 : (Instr.addImm true .r1 .r0 16).wellFormed = false := by decide
theorem test_wf_refuses_imm_minus_17 : (Instr.stImm .r1 .r0 (-17)).wellFormed = false := by decide
theorem test_wf_refuses_off_128 : (Instr.bal 128).wellFormed = false := by decide
theorem test_wf_refuses_off_minus_129 : (Instr.ble (-129)).wellFormed = false := by decide
theorem test_wf_accepts_the_bounds :
    (Instr.addImm true .r1 .r0 15).wellFormed = true ∧ (Instr.stImm .r1 .r0 (-16)).wellFormed = true ∧
      (Instr.bal 127).wellFormed = true ∧ (Instr.ble (-128)).wellFormed = true := by decide
theorem test_wf_refuses_every_immediate_form :
    (([.addImm true .r1 .r2 16, .adcImm true .r1 .r2 16, .subImm true .r1 .r2 16, .sbcImm true .r1 .r2 16,
      .andImm true .r1 .r2 16, .orImm true .r1 .r2 16, .ldImm .r1 .r2 16, .stImm .r1 .r2 16] ++
     [.bal 128, .bnv 128, .bhi 128, .bls 128, .bcc 128, .bcs 128, .bne 128, .beq 128] ++
     [.bvc 128, .bvs 128, .bpl 128, .bmi 128, .bge 128, .blt 128, .bgt 128, .ble 128] : List Instr)).all
      (fun i => !i.wellFormed) = true := by decide

/-! ### Decoding and encoding (spec/95_test_vectors.md 2.1; the other words are written out from R52, R54 to R56) -/

theorem test_decode_add : decode 0b0000001100101001 = .addReg false .r3 .r1 .r2 .asr ∧
    decode 0b0001100100000101 = .addImm true .r1 .r0 5 := by decide
theorem test_decode_adc : decode 0b0010110010111011 = .adcReg true .r4 .r5 .r6 .rrc ∧
    decode 0b0011100100000000 = .adcImm true .r1 .r0 0 := by decide
theorem test_decode_sub : decode 0b0100100000101000 = .subReg true .r0 .r1 .r2 .none ∧
    decode 0b0101000100100001 = .subImm false .r1 .r1 1 := by decide
theorem test_decode_sbc : decode 0b0110111111111111 = .sbcReg true .r7 .r7 .r7 .rrc ∧
    decode 0b0111001001111111 = .sbcImm false .r2 .r3 0xFFFF := by decide
theorem test_decode_and : decode 0b1000100101001110 = .andReg true .r1 .r2 .r3 .ror ∧
    decode 0b1001000101001111 = .andImm false .r1 .r2 15 := by decide
theorem test_decode_or : decode 0b1010111011000001 = .orReg true .r6 .r6 .r0 .asr ∧
    decode 0b1011010110110000 = .orImm false .r5 .r5 0xFFF0 := by decide
theorem test_decode_ld : decode 0b1100000011011110 = .ldReg .r0 .r6 .r7 .ror ∧
    decode 0b1101001000111111 = .ldImm .r2 .r1 0xFFFF := by decide
theorem test_decode_st : decode 0b1100101000101100 = .stReg .r2 .r1 .r3 .none ∧
    decode 0b1101111100001100 = .stImm .r7 .r0 12 := by decide
/-- Conditions 0 to 7; the ignored bit 12 is 1 in every second word. -/
theorem test_decode_branch_low :
    decode 0b1110000011111111 = .bal 0xFFFF ∧ decode 0b1111000100000000 = .bnv 0 ∧
    decode 0b1110001010000000 = .bhi 0xFF80 ∧ decode 0b1111001100000011 = .bls 3 ∧
    decode 0b1110010001111111 = .bcc 127 ∧ decode 0b1111010110000001 = .bcs 0xFF81 ∧
    decode 0b1110011011111101 = .bne 0xFFFD ∧ decode 0b1111011100000001 = .beq 1 := by decide
/-- Conditions 8 to 15. -/
theorem test_decode_branch_high :
    decode 0b1110100000000011 = .bvc 3 ∧ decode 0b1111100110000000 = .bvs 0xFF80 ∧
    decode 0b1110101001111111 = .bpl 127 ∧ decode 0b1111101111111101 = .bmi 0xFFFD ∧
    decode 0b1110110000000001 = .bge 1 ∧ decode 0b1111110110000001 = .blt 0xFF81 ∧
    decode 0b1110111000000010 = .bgt 2 ∧ decode 0b1111111111111111 = .ble 0xFFFF := by decide

theorem test_encode_type_1_and_2 :
    encode (.addReg false .r3 .r1 .r2 .asr) = 0x0329 ∧ encode (.adcReg true .r4 .r5 .r6 .rrc) = 0x2CBB ∧
    encode (.subImm false .r1 .r1 1) = 0x5121 ∧ encode (.sbcImm false .r2 .r3 0xFFFF) = 0x727F ∧
    encode (.orImm false .r5 .r5 0xFFF0) = 0xB5B0 ∧ encode (.ldReg .r1 .r0 .r0 .none) = 0xC100 ∧
    encode (.stReg .r2 .r1 .r3 .none) = 0xCA2C ∧ encode (.ldImm .r7 .r6 0) = 0xD7C0 := by decide
theorem test_encode_branch :
    encode (.bal 0xFFFF) = 0xE0FF ∧ encode (.bnv 0) = 0xE100 ∧ encode (.bne 0xFFFD) = 0xE6FD ∧
    encode (.ble 127) = 0xEF7F ∧ encode (.bhi 0xFF80) = 0xE280 := by decide
/-- The host's numbering of a row's word: bit 0 is the least significant bit of the one word. -/
theorem test_decodeTableWord : decodeTableWord 16 0x1905 = some (.addImm true .r1 .r0 5) := by decide

/-! ### Shifter, adder, conditions on the spec's tables -/

/-- Rows of the table of 2.2. -/
theorem test_shifter_rows :
    (shiftOut 0x8001 .asr false, shiftCarry 0x8001 .asr) = (0xC000, true) ∧
    (shiftOut 0x7FFE .asr true, shiftCarry 0x7FFE .asr) = (0x3FFF, false) ∧
    (shiftOut 0x0001 .ror false, shiftCarry 0x0001 .ror) = (0x8000, true) ∧
    (shiftOut 0xABCD .ror false, shiftCarry 0xABCD .ror) = (0xD5E6, true) ∧
    (shiftOut 0xABCD .rrc false, shiftCarry 0xABCD .rrc) = (0x55E6, true) ∧
    (shiftOut 0x0002 .rrc true, shiftCarry 0x0002 .rrc) = (0x8001, false) := by decide

/-- The four-step and seventeen-step values of S5. -/
theorem test_rrc_ring :
    let s : State := { State.reset with r1 := 0x0001 }
    ((rrcOnce .r1)^[4] s).r1 = 0x2000 ∧ ((rrcOnce .r1)^[17] s).r1 = 0x0001 ∧
      ((rrcOnce .r1)^[17] s).flags.c = false := by decide

/-- Rows of the adder's table of 2.3. -/
theorem test_adder_rows :
    adder 0x7FFF 0x0001 false =
      { sum := 0x8000, carryOut := false, overflow := true, negative := true, zero := false } ∧
    adder 0x8000 0x8000 false =
      { sum := 0x0000, carryOut := true, overflow := true, negative := false, zero := true } ∧
    adder 0x8000 0x7FFF true =
      { sum := 0x0000, carryOut := true, overflow := false, negative := false, zero := true } ∧
    adder 0xFFFF 0xFFFF true =
      { sum := 0xFFFF, carryOut := true, overflow := false, negative := true, zero := false } := by decide

/-- The truth table of 2.6: row `cond`, columns NZVC from 0000 to 1111, the first column leftmost. -/
def conditionRows : List (BitVec 16) :=
  [0b1111111111111111, 0b0000000000000000, 0b1010000010100000, 0b0101111101011111,
   0b1010101010101010, 0b0101010101010101, 0b1111000011110000, 0b0000111100001111] ++
  [0b1100110011001100, 0b0011001100110011, 0b1111111100000000, 0b0000000011111111,
   0b1100110000110011, 0b0011001111001100, 0b1100000000110000, 0b0011111111001111]

theorem test_condition_table : ∀ (k f : BitVec 4),
    some (taken (Cond.ofBits k)
      { n := f.getLsbD 3, z := f.getLsbD 2, v := f.getLsbD 1, c := f.getLsbD 0 }) =
      (conditionRows[k.toNat]?).map (fun row => row.getLsbD (15 - f.toNat)) := by decide

/-! ### One step on a small state -/

/-- The flags written `CVZN=...` in the vectors. -/
def cvzn (b : BitVec 4) : Flags :=
  { c := b.getLsbD 3, v := b.getLsbD 2, z := b.getLsbD 1, n := b.getLsbD 0 }

/-- A vector: with the word `w` at the pc of `s`, one step leaves exactly `after` of that state. -/
def vector (w : Nat) (s : State) (after : State → State) : Bool :=
  match step (s.withFetchWord 16 w) with
  | .next t => decide (t = after (s.withFetchWord 16 w))
  | .fault _ => false
  | .refused _ => false

/-- The state of the vectors: what is not listed is zero. -/
abbrev blank : State := State.reset

/-- A5. -/
theorem test_addReg_shifted_overflow : vector 0x0A25 { blank with r1 := 0x8001 }
    (fun s => { s with pc := 0x0001, r2 := 0x4001, flags := cvzn 0b1100, sc := true }) = true := by decide
/-- A18. -/
theorem test_addReg_nop_wraps_the_pc : vector 0x0000 { blank with pc := 0xFFFF, sc := true }
    (fun s => { s with pc := 0x0000, sc := false }) = true := by decide
/-- S8. -/
theorem test_addImm_first_step_after_reset : vector 0x1905 blank
    (fun s => { s with pc := 0x0001, r1 := 0x0005, flags := cvzn 0b0000 }) = true := by decide
/-- A7. -/
theorem test_addImm_writes_the_pc : vector 0x17E3 { blank with pc := 0x0100 }
    (fun s => { s with pc := 0x0104 }) = true := by decide
/-- A6. -/
theorem test_adcReg_rotates_and_adds_c : vector 0x2B2B { blank with r1 := 0x0003, r2 := 0x0001, flags := cvzn 0b1000 }
    (fun s => { s with pc := 0x0001, r3 := 0x8003, flags := cvzn 0b0001, sc := true }) = true := by decide
/-- A10. -/
theorem test_adcImm_moves_c : vector 0x3900 { blank with flags := cvzn 0b1000 }
    (fun s => { s with pc := 0x0001, r1 := 0x0001, flags := cvzn 0b0000 }) = true := by decide
/-- A11. -/
theorem test_subReg_borrow : vector 0x4828 { blank with r1 := 0x0003, r2 := 0x0005 }
    (fun s => { s with pc := 0x0001, flags := cvzn 0b1001 }) = true := by decide
/-- A16. -/
theorem test_subReg_negates : vector 0x4104 { blank with r1 := 0x8000, flags := cvzn 0b0100 }
    (fun s => { s with pc := 0x0001 }) = true := by decide
/-- A13. -/
theorem test_subImm_minus_one : vector 0x593F { blank with r1 := 0x7FFF }
    (fun s => { s with pc := 0x0001, r1 := 0x8000, flags := cvzn 0b1101 }) = true := by decide
/-- A17. -/
theorem test_subImm_writes_the_pc : vector 0x5FE1 { blank with pc := 0x0020 } (fun s => s) = true := by decide
/-- A14. -/
theorem test_sbcReg_with_borrow : vector 0x6B28 { blank with r1 := 0x0005, r2 := 0x0003, flags := cvzn 0b1000 }
    (fun s => { s with pc := 0x0001, r3 := 0x0001, flags := cvzn 0b0000 }) = true := by decide
/-- A15. -/
theorem test_sbcReg_without_borrow : vector 0x6B28 { blank with r1 := 0x0005, r2 := 0x0003 }
    (fun s => { s with pc := 0x0001, r3 := 0x0002 }) = true := by decide
/-- 2.3's row SBC 0x0000, 0xFFFF, old C 1, as `SBCS R2, R3, #-1`. -/
theorem test_sbcImm_with_borrow : vector 0x7A7F { blank with flags := cvzn 0b1000 }
    (fun s => { s with pc := 0x0001, r2 := 0x0000, flags := cvzn 0b1010 }) = true := by decide
/-- L1. -/
theorem test_andReg_ror : vector 0x894E { blank with r2 := 0x0001, r3 := 0xFFFF, flags := cvzn 0b0100 }
    (fun s => { s with pc := 0x0001, r1 := 0x8000, flags := cvzn 0b1001, sc := true }) = true := by decide
/-- L2. -/
theorem test_andReg_none_clears_c : vector 0x894C { blank with r2 := 0x00FF, r3 := 0xFF00, flags := cvzn 0b1101, sc := true }
    (fun s => { s with pc := 0x0001, flags := cvzn 0b0010, sc := false }) = true := by decide
/-- L3. -/
theorem test_andImm_clears_c_keeps_sc : vector 0x994F { blank with r2 := 0x1234, flags := cvzn 0b1101, sc := true }
    (fun s => { s with pc := 0x0001, r1 := 0x0004, flags := cvzn 0b0000 }) = true := by decide
/-- L4. -/
theorem test_andImm_keeps_flags : vector 0x915F { blank with r2 := 0x1234, flags := cvzn 0b1101, sc := true }
    (fun s => { s with pc := 0x0001, r1 := 0x1234 }) = true := by decide
/-- L5. -/
theorem test_orReg_asr : vector 0xAEC1 { blank with r6 := 0x0003 }
    (fun s => { s with pc := 0x0001, r6 := 0x0001, flags := cvzn 0b1000, sc := true }) = true := by decide
/-- L6. -/
theorem test_orReg_rrc : vector 0xADA3 { blank with flags := cvzn 0b1000 }
    (fun s => { s with pc := 0x0001, r5 := 0x8000, flags := cvzn 0b0001 }) = true := by decide
/-- L7. -/
theorem test_orImm_negative : vector 0xB910 { blank with flags := cvzn 0b1110 }
    (fun s => { s with pc := 0x0001, r1 := 0xFFF0, flags := cvzn 0b0001 }) = true := by decide
/-- L8. -/
theorem test_orImm_zero : vector 0xB800 { blank with flags := cvzn 0b1101 }
    (fun s => { s with pc := 0x0001, flags := cvzn 0b0010 }) = true := by decide
/-- M1. -/
theorem test_ldReg_own_word : vector 0xC100 blank
    (fun s => { s with pc := 0x0001, r1 := 0xC100 }) = true := by decide
/-- M3. -/
theorem test_ldReg_shifted : vector 0xC22D
    { blank with r1 := 0x0041, r3 := 0x0010, flags := cvzn 0b1111, mem := [(0x0030, 0x5A5A)] }
    (fun s => { s with pc := 0x0001, r2 := 0x5A5A, sc := true }) = true := by decide
/-- M2. -/
theorem test_ldImm_wraps : vector 0xD221 { blank with pc := 0x0020, r1 := 0xFFFF, mem := [(0x0000, 0xABCD)] }
    (fun s => { s with pc := 0x0021, r2 := 0xABCD }) = true := by decide
/-- M5. -/
theorem test_ldImm_jumps : vector 0xD7C0 { blank with r6 := 0x0040, mem := [(0x0040, 0x0123)] }
    (fun s => { s with pc := 0x0123 }) = true := by decide
/-- M8. -/
theorem test_stReg : vector 0xCA2C { blank with r1 := 0x0100, r2 := 0xBEEF, r3 := 0x0002 }
    (fun s => { s with pc := 0x0001, mem := [(0x0000, 0xCA2C), (0x0102, 0xBEEF)] }) = true := by decide
/-- H5. -/
theorem test_stReg_shifted : vector 0xC942 { blank with r1 := 0xAAAA, r2 := 0x0021 }
    (fun s => { s with pc := 0x0001, sc := true, mem := [(0x0000, 0xC942), (0x8010, 0xAAAA)] }) = true := by decide
/-- M9. -/
theorem test_stImm_stores_the_pc : vector 0xDF0C { blank with pc := 0x0005 }
    (fun s => { s with pc := 0x0006, mem := [(0x0005, 0xDF0C), (0x000C, 0x0006)] }) = true := by decide
/-- M11: its own word becomes the 0x0000 that an unlisted word reads as, so the list is empty again. -/
theorem test_stImm_zero_unlists : vector 0xDAFF { blank with pc := 0x0030 }
    (fun s => { s with pc := 0x0031, mem := [] }) = true := by decide
/-- B2. -/
theorem test_bal_self : vector 0xF0FF { blank with pc := 0x0005, flags := cvzn 0b1111, sc := true }
    (fun s => s) = true := by decide
/-- B5. -/
theorem test_bal_back : vector 0xE080 blank (fun s => { s with pc := 0xFF81 }) = true := by decide
/-- B3. -/
theorem test_bnv : vector 0xE105 { blank with pc := 0x0005, flags := cvzn 0b1111 }
    (fun s => { s with pc := 0x0006 }) = true := by decide
/-- B9. -/
theorem test_bhi : vector 0xE202 { blank with pc := 0x0010 } (fun s => { s with pc := 0x0013 }) = true := by decide
/-- B10. -/
theorem test_bhi_equal : vector 0xE202 { blank with pc := 0x0010, flags := cvzn 0b0010 }
    (fun s => { s with pc := 0x0011 }) = true := by decide
/-- B6. -/
theorem test_bne : vector 0xE6FD { blank with pc := 0x0004 } (fun s => { s with pc := 0x0002 }) = true := by decide
/-- B7. -/
theorem test_bne_equal : vector 0xE6FD { blank with pc := 0x0004, flags := cvzn 0b0010 }
    (fun s => { s with pc := 0x0005 }) = true := by decide
/-- B11. -/
theorem test_bgt : vector 0xEE02 { blank with pc := 0x0010, flags := cvzn 0b0101 }
    (fun s => { s with pc := 0x0013 }) = true := by decide
/-- B12. -/
theorem test_ble : vector 0xEF02 { blank with pc := 0x0010, flags := cvzn 0b0001 }
    (fun s => { s with pc := 0x0013 }) = true := by decide

/-! The other branches after A11's comparison (CVZN=1001, column 1001 of 2.6), offset +2 from 0x0010. -/

/-- The pc after a branch word at 0x0010 with the flags of A11. -/
def afterCompare (w : Nat) (pc : Word) : Bool :=
  vector w { blank with pc := 0x0010, flags := cvzn 0b1001 } (fun s => { s with pc := pc })

theorem test_bls : afterCompare 0xE302 0x0013 = true := by decide
theorem test_bcc : afterCompare 0xE402 0x0011 = true := by decide
theorem test_bcs : afterCompare 0xE502 0x0013 = true := by decide
theorem test_beq : afterCompare 0xE702 0x0011 = true := by decide
theorem test_bvc : afterCompare 0xE802 0x0013 = true := by decide
theorem test_bvs : afterCompare 0xE902 0x0011 = true := by decide
theorem test_bpl : afterCompare 0xEA02 0x0011 = true := by decide
theorem test_bmi : afterCompare 0xEB02 0x0013 = true := by decide
theorem test_bge : afterCompare 0xEC02 0x0011 = true := by decide
theorem test_blt : afterCompare 0xED02 0x0013 = true := by decide

/-! ### The hypotheses of the obligations can be met

Each theorem is named `meets_<obligation>` and gives a state and operands that meet all hypotheses of that obligation
together, one conjunct or one theorem for each clause. -/

/-- A state with `w` at its pc, 0x0010, and with distinct registers. -/
def placed (w : Word) : State :=
  { r1 := 0x0003, r2 := 0x0005, r3 := 0x0040, r4 := 0x0100, r5 := 0x8001, r6 := 0xFFFF, pc := 0x0010,
    flags := cvzn 0b1000, sc := true, mem := [(0x0010, w)] }

theorem meets_SlotZeroDiscardsWrites : (Reg.r7 ≠ .r0 ∧ Reg.r1 ≠ .r0 ∧ Reg.r0 ≠ .r7) ∧
    destination (.addReg true .r1 .r2 .r3 .asr) ≠ some .r2 ∧ destination (.bal 1) ≠ some .r0 := by decide

theorem meets_MemoryWriteChangesOneWord : (0xFFFF : Word) ≠ 0x0000 := by decide

theorem meets_CanonicalMemoriesAreEqualWhenTheyReadAlike :
    Memory.wf [(0x0000, 0x1234), (0xFFFF, 0x0001)] ∧
      ∀ a, Memory.read [(0x0000, 0x1234), (0xFFFF, 0x0001)] a = Memory.read [(0x0000, 0x1234), (0xFFFF, 0x0001)] a :=
  ⟨by decide, fun _ => rfl⟩

/-- The first and the last line that the memory has room for. -/
theorem meets_ImageLineGivesItsWord :
    0 < ([0x1905] : List Word).length ∧ 0 < 65536 ∧
      65535 < (List.replicate 65537 (0x1905 : Word)).length ∧ 65535 < 65536 :=
  ⟨by decide, by decide, by rw [List.length_replicate]; decide, by decide⟩

theorem meets_ResetMemoryIsCanonical : Safety.Inv (placed 0xE0FF) := by decide

theorem meets_DecodeEncodeRoundTrip :
    (Instr.ldImm .r7 .r7 0xFFF0).wellFormed = true ∧ (Instr.orImm true .r0 .r7 15).wellFormed = true ∧
      (Instr.bgt 0xFF80).wellFormed = true ∧ (Instr.bnv 127).wellFormed = true ∧
      (Instr.sbcReg true .r7 .r0 .r7 .rrc).wellFormed = true := by decide

/-- Both sides of the equivalence, and a word of another row. -/
theorem meets_OpcodeTableDividesTheWords :
    tableRows[0]? = some (0x0000, 0xF000) ∧ tableRows[31]? = some (0xEF00, 0xEF00) ∧
      (0xFF12 : Word) &&& 0xEF00 = 0xEF00 ∧ rowOf (decode 0xFF12) = 31 ∧ rowOf (decode 0x0FFF) = 0 := by decide

/-- Each side of the equivalence is met by two different words, and refuted by two. -/
theorem meets_OnlyBranchBitTwelveIsIgnored :
    decode 0xE0FF = decode 0xF0FF ∧ ((0xE0FF : Word) &&& 0xE000 = 0xE000 ∧ (0xF0FF : Word) = 0xE0FF ^^^ 0x1000) ∧
      decode 0xC0FF ≠ decode 0xD0FF := by decide

theorem meets_AsrHalvesTheSignedValue : 0 < 15 ∧ 14 < 15 := by decide
theorem meets_RorRotatesByOne : 0 < 15 ∧ 14 < 15 := by decide

/-- The two fixed points and a state of the full period, at the ends of the range of k. -/
theorem meets_RrcHasPeriodSeventeen :
    Reg.r1 ≠ .r0 ∧ Reg.r7 ≠ .r0 ∧ (0 < 1 ∧ 1 < 17) ∧ (0 < 16 ∧ 16 < 17) ∧
      (State.reset.readReg .r1 = 0x0000 ∧ State.reset.flags.c = false) ∧
      ((placed 0).readReg .r6 = 0xFFFF ∧ (placed 0).flags.c = true) ∧
      ¬((placed 0).readReg .r1 = 0x0000 ∧ (placed 0).flags.c = false) := by decide

theorem meets_TypeOneAlwaysWritesSc :
    shifted (.addReg false .r1 .r2 .r3 .none) = some (.r2, .none) ∧ shifted (.adcReg true .r1 .r2 .r3 .asr) = some (.r2, .asr) ∧
    shifted (.subReg true .r0 .r7 .r3 .ror) = some (.r7, .ror) ∧ shifted (.sbcReg true .r1 .r2 .r3 .rrc) = some (.r2, .rrc) ∧
    shifted (.andReg true .r1 .r2 .r3 .none) = some (.r2, .none) ∧ shifted (.orReg true .r1 .r0 .r3 .rrc) = some (.r0, .rrc) ∧
    shifted (.ldReg .r1 .r2 .r3 .asr) = some (.r2, .asr) ∧ shifted (.stReg .r1 .r2 .r3 .ror) = some (.r2, .ror) := by decide

theorem meets_OtherFormsLeaveSc :
    shifted (.addImm true .r1 .r2 15) = none ∧ shifted (.stImm .r1 .r2 0xFFF0) = none ∧ shifted (.ble 0xFF80) = none := by
  decide

/-- ldcc set and clear, the carry inverted and not, and the destinations 0, 7 and another. -/
theorem meets_LdccGatesFlagsNeverTheResult :
    (adderInputs (.addReg true .r0 .r1 .r2 .none) (placed 0) = some (0x0003, 0x0005, false, false) ∧
      setsFlags (.addReg true .r0 .r1 .r2 .none) = true ∧ destination (.addReg true .r0 .r1 .r2 .none) = some .r0) ∧
    (adderInputs (.sbcImm false .r7 .r1 5) (placed 0) = some (0x0003, 0xFFFA, false, true) ∧
      setsFlags (.sbcImm false .r7 .r1 5) = false ∧ destination (.sbcImm false .r7 .r1 5) = some .r7) ∧
    destination (.subImm true .r3 .r1 5) = some .r3 := by decide

/-- 0x0005_0003 minus 0x8001_0005: the registers, and the two states the instructions answer. -/
theorem meets_TwoWordSubtraction :
    (Reg.r3 ≠ .r0 ∧ Reg.r4 ≠ .r0 ∧ Reg.r4 ≠ .r3 ∧ Reg.r2 ≠ .r3 ∧ Reg.r5 ≠ .r3) ∧
    ∃ t u, exec (.subReg true .r3 .r1 .r2 .none) (placed 0) = .next t ∧
      exec (.sbcReg true .r4 .r2 .r5 .none) t = .next u ∧ u.readReg .r3 = 0xFFFE ∧ u.readReg .r4 = 0x8003 :=
  ⟨by decide, _, _, rfl, rfl, rfl, rfl⟩

theorem meets_EffectiveAddressWraps : Reg.r0 ≠ Reg.r1 ∧ Reg.r7 ≠ Reg.r1 ∧ Reg.r1 ≠ Reg.r7 := by decide

theorem meets_LoadStoreLeavesFlags :
    (isLoad (.ldReg .r1 .r5 .r0 .rrc) || isStore (.ldReg .r1 .r5 .r0 .rrc)) = true ∧
    shifted (.ldReg .r1 .r5 .r0 .rrc) = some (.r5, .rrc) ∧
    (isLoad (.stReg .r1 .r5 .r0 .none) || isStore (.stReg .r1 .r5 .r0 .none)) = true ∧
    (isLoad (.stImm .r1 .r5 0) || isStore (.stImm .r1 .r5 0)) = true ∧
    (isLoad (.ldImm .r1 .r5 0) || isStore (.ldImm .r1 .r5 0)) = true := by decide

/-- Taken and not taken, at the ends of the offset's range. -/
theorem meets_BranchTarget :
    (branchOf (decode (placed 0xE080).fetchWord) = some (.al, 0xFF80) ∧ taken .al (placed 0xE080).flags = true) ∧
    branchOf (decode (placed 0xF47F).fetchWord) = some (.cc, 127) ∧ taken .cc (placed 0xF47F).flags = false := by decide

theorem meets_StepRunsTheDecodedInstruction :
    decode ((placed 0x1905).memRead (placed 0x1905).pc) = .addImm true .r1 .r0 5 ∧
    decode (({ placed 0 with pc := 0xFFFF, mem := [(0xFFFF, 0xE0FF)] } : State).memRead 0xFFFF) = .bal 0xFFFF := by decide

/-- A store that lists a word, and a store that unlists one. -/
theorem meets_StepKeepsMemoryCanonical :
    (Safety.Inv (placed 0xD960) ∧
      step (placed 0xD960) = .next { placed 0xD960 with pc := 0x0011, mem := [(0x0010, 0xD960), (0x0040, 0x0003)] }) ∧
    Safety.Inv (placed 0xD8FF) ∧ step (placed 0xD8FF) = .next { placed 0xD8FF with pc := 0x0011, mem := [] } :=
  ⟨⟨by decide, rfl⟩, by decide, rfl⟩

theorem meets_OnlyStoresWriteMemory : isStore (.ldReg .r1 .r3 .r0 .none) = false ∧
    ∃ t, exec (.ldReg .r1 .r3 .r0 .none) (placed 0) = .next t := ⟨by decide, _, rfl⟩

theorem meets_OnlyFlagSettersWriteFlags : setsFlags (.adcImm false .r1 .r3 1) = false ∧
    ∃ t, exec (.adcImm false .r1 .r3 1) (placed 0) = .next t := ⟨by decide, _, rfl⟩

/-- An instruction with a destination, one with none, and a branch. -/
theorem meets_OnlyTheDestinationIsWritten :
    (destination (.orImm true .r1 .r3 1) ≠ some .r7 ∧ branchOf (.orImm true .r1 .r3 1) = none) ∧
    (destination (.stImm .r1 .r3 1) ≠ some .r1 ∧ branchOf (.stImm .r1 .r3 1) = none) ∧
    (destination (.bal 1) ≠ some .r1 ∧ Reg.r1 ≠ .r7) ∧
    (∃ t, exec (.orImm true .r1 .r3 1) (placed 0) = .next t) ∧ (∃ t, exec (.stImm .r1 .r3 1) (placed 0) = .next t) ∧
    ∃ t, exec (.bal 1) (placed 0) = .next t :=
  ⟨by decide, by decide, by decide, ⟨_, rfl⟩, ⟨_, rfl⟩, _, rfl⟩

/-- The increment, a taken branch and a write of slot 7 each happen. -/
theorem meets_ControlFlowHasThreeSources :
    (∃ t, step (placed 0x0000) = .next t ∧ t.pc = 0x0011) ∧ (∃ t, step (placed 0xE07F) = .next t ∧ t.pc = 0x0090) ∧
    ∃ t, step (placed 0x0718) = .next t ∧ t.pc = 0xFFFF :=
  ⟨⟨_, rfl, rfl⟩, ⟨_, rfl, rfl⟩, _, rfl, rfl⟩

/-- A load into a slot other than 0, a store, and an instruction that makes no data access. -/
theorem meets_PortAccessesOfAStep :
    (isLoad (decode (placed 0xD160).fetchWord) = true ∧ destination (decode (placed 0xD160).fetchWord) = some .r1 ∧
      Reg.r1 ≠ .r0 ∧ portAccesses (placed 0xD160) = [.read 0x0010, .read 0x0040]) ∧
    (isStore (decode (placed 0xD960).fetchWord) = true ∧
      portAccesses (placed 0xD960) = [.read 0x0010, .write 0x0040 0x0003]) ∧
    isLoad (decode (placed 0xE0FF).fetchWord) = false ∧ isStore (decode (placed 0xE0FF).fetchWord) = false ∧
      portAccesses (placed 0xE0FF) = [.read 0x0010] := by decide

/-- Two stores to one address in a run of two steps: `ST R1, [R3, #0]` and `ST R2, [R3, #0]`. -/
theorem meets_MemoryHoldsTheLastStore :
    (∃ t, Safety.run 2 { placed 0xD960 with mem := [(0x0010, 0xD960), (0x0011, 0xDA60)] } = .next t) ∧
    lastStored (storesOfRun 2 { placed 0xD960 with mem := [(0x0010, 0xD960), (0x0011, 0xDA60)] }) 0x0040 = some 0x0005 :=
  ⟨⟨_, rfl⟩, by decide⟩

/-- M12: the store writes the word that is fetched next; and M11's store to its own word. -/
theorem meets_StoreIsSeenByTheNextFetch :
    (portAccesses (placed 0xDAE0) = [.read 0x0010, .write 0x0011 0x0005] ∧
      ∃ t, step (placed 0xDAE0) = .next t ∧ t.pc = 0x0011) ∧
    portAccesses (placed 0xDAFF) = [.read 0x0010, .write 0x0010 0x0005] :=
  ⟨⟨by decide, _, rfl, rfl⟩, by decide⟩

/-- Both encodings of `BAL -1`, a run that ends after one step (`ADD R1, R0, #5`, then `BAL -1`), and the other word. -/
theorem meets_SelfBranchEndsTheRun :
    ((placed 0xE0FF).memRead (placed 0xE0FF).pc = 0xE0FF ∧ (placed 0xF0FF).memRead (placed 0xF0FF).pc = 0xF0FF) ∧
    (∃ t, Safety.EndsIn { placed 0x1105 with mem := [(0x0010, 0x1105), (0x0011, 0xE0FF)] } t ∧ t.r1 = 0x0005) ∧
    (placed 0x17FF).memRead (placed 0x17FF).pc = 0x17FF :=
  ⟨by decide, ⟨_, ⟨⟨1, rfl⟩, by decide⟩, rfl⟩, by decide⟩

end Sys2Proof.Tests
end

section
/-! What an instruction does, said once: its shifter runs, and then one of five effects, all of whose operands were read
from the state before the instruction wrote anything (spec/40_shifter_operands.md R79), is applied. -/

namespace Sys2Proof.Machine

open Sys2Proof Sys2Proof.Stated

/-- The end of an instruction with its operands already read: the five shared operations of the meanings. -/
inductive Effect where
  | arith (ldcc : Bool) (dst : Reg) (r : AdderOut) (invert : Bool)
  | logic (ldcc : Bool) (dst : Reg) (res : Word) (carry : Bool)
  | load (ea : Word) (dst : Reg)
  | store (ea : Word) (dst : Reg)
  | branch (cond : Cond) (off : Word)

/-- The effect as a change of the state. -/
def Effect.apply : Effect → State → State
  | .arith ldcc dst r invert => finishArith ldcc dst r invert
  | .logic ldcc dst res carry => finishLogic ldcc dst res carry
  | .load ea dst => loadFrom ea dst
  | .store ea dst => storeTo ea dst
  | .branch cond off => branchIf cond off

/-- The effect an instruction has, its operands read from `s`. -/
def effect (i : Instr) (s : State) : Effect :=
  match i with
  | .addReg l d a b h => .arith l d (adder (operandAReg a h s) (operandBReg b s) false) false
  | .addImm l d a m => .arith l d (adder (operandAImm a s) m false) false
  | .adcReg l d a b h => .arith l d (adder (operandAReg a h s) (operandBReg b s) s.flags.c) false
  | .adcImm l d a m => .arith l d (adder (operandAImm a s) m s.flags.c) false
  | .subReg l d a b h => .arith l d (adder (operandAReg a h s) (~~~(operandBReg b s)) true) true
  | .subImm l d a m => .arith l d (adder (operandAImm a s) (~~~m) true) true
  | .sbcReg l d a b h => .arith l d (adder (operandAReg a h s) (~~~(operandBReg b s)) (!s.flags.c)) true
  | .sbcImm l d a m => .arith l d (adder (operandAImm a s) (~~~m) (!s.flags.c)) true
  | .andReg l d a b h => .logic l d (operandAReg a h s &&& operandBReg b s) (shifterCarryReg a h s)
  | .andImm l d a m => .logic l d (operandAImm a s &&& m) false
  | .orReg l d a b h => .logic l d (operandAReg a h s ||| operandBReg b s) (shifterCarryReg a h s)
  | .orImm l d a m => .logic l d (operandAImm a s ||| m) false
  | .ldReg d a b h => .load (effectiveAddressReg a b h s) d
  | .ldImm d a m => .load (effectiveAddressImm a m s) d
  | .stReg d a b h => .store (effectiveAddressReg a b h s) d
  | .stImm d a m => .store (effectiveAddressImm a m s) d
  | .bal o => .branch .al o
  | .bnv o => .branch .nv o
  | .bhi o => .branch .hi o
  | .bls o => .branch .ls o
  | .bcc o => .branch .cc o
  | .bcs o => .branch .cs o
  | .bne o => .branch .ne o
  | .beq o => .branch .eq o
  | .bvc o => .branch .vc o
  | .bvs o => .branch .vs o
  | .bpl o => .branch .pl o
  | .bmi o => .branch .mi o
  | .bge o => .branch .ge o
  | .blt o => .branch .lt o
  | .bgt o => .branch .gt o
  | .ble o => .branch .le o

/-- The state after the instruction's shifter has run: SC is written by type 1 and by no other (R76, R77). -/
def afterShifter (i : Instr) (s : State) : State :=
  match shifted i with
  | some (a, h) => runShifter a h s
  | none => s

/-- Every instruction completes: it runs its shifter and applies its effect. -/
theorem exec_eq_effect (i : Instr) (s : State) : exec i s = .next ((effect i s).apply (afterShifter i s)) := by
  cases i <;> rfl

/-- The one state that `exec` answers. -/
theorem eq_effect_of_exec {i : Instr} {s t : State} (h : exec i s = .next t) :
    t = (effect i s).apply (afterShifter i s) := by
  rw [exec_eq_effect] at h
  cases h
  rfl

/-! ### The shifter writes SC alone -/

@[simp] theorem afterShifter_flags (i : Instr) (s : State) : (afterShifter i s).flags = s.flags := by
  unfold afterShifter; split <;> rfl
@[simp] theorem afterShifter_mem (i : Instr) (s : State) : (afterShifter i s).mem = s.mem := by
  unfold afterShifter; split <;> rfl
@[simp] theorem afterShifter_readReg (i : Instr) (q : Reg) (s : State) :
    (afterShifter i s).readReg q = s.readReg q := by
  unfold afterShifter; split <;> simp

/-! ### What an effect writes, and that it is what the statements say of the instruction -/

/-- The slot an effect writes its result to. -/
def Effect.destination : Effect → Option Reg
  | .arith _ dst _ _ | .logic _ dst _ _ | .load _ dst => some dst
  | .store _ _ | .branch _ _ => none

/-- Whether the effect writes the condition flags. -/
def Effect.setsFlags : Effect → Bool
  | .arith ldcc _ _ _ | .logic ldcc _ _ _ => ldcc
  | .load _ _ | .store _ _ | .branch _ _ => false

/-- Whether the effect writes memory. -/
def Effect.isStore : Effect → Bool
  | .store _ _ => true
  | .arith _ _ _ _ | .logic _ _ _ _ | .load _ _ | .branch _ _ => false

/-- The condition and offset of a branch's effect. -/
def Effect.branchOf : Effect → Option (Cond × Word)
  | .branch cond off => some (cond, off)
  | .arith _ _ _ _ | .logic _ _ _ _ | .load _ _ | .store _ _ => none

/-- The effect with slot 0 as its destination, if it has one. -/
def Effect.discard : Effect → Effect
  | .arith ldcc _ r invert => .arith ldcc .r0 r invert
  | .logic ldcc _ res carry => .logic ldcc .r0 res carry
  | .load ea _ => .load ea .r0
  | .store ea dst => .store ea dst
  | .branch cond off => .branch cond off

@[simp] theorem effect_destination (i : Instr) (s : State) :
    (effect i s).destination = Stated.destination i := by cases i <;> rfl
@[simp] theorem effect_setsFlags (i : Instr) (s : State) : (effect i s).setsFlags = Stated.setsFlags i := by
  cases i <;> rfl
@[simp] theorem effect_isStore (i : Instr) (s : State) : (effect i s).isStore = Stated.isStore i := by
  cases i <;> rfl
@[simp] theorem effect_branchOf (i : Instr) (s : State) : (effect i s).branchOf = Stated.branchOf i := by
  cases i <;> rfl
theorem effect_discarding (i : Instr) (s : State) : effect (discarding i) s = (effect i s).discard := by
  cases i <;> rfl
theorem afterShifter_discarding (i : Instr) (s : State) : afterShifter (discarding i) s = afterShifter i s := by
  cases i <;> rfl

/-! ### The frame of an effect -/

theorem Effect.apply_mem {e : Effect} (h : e.isStore = false) (s : State) : (e.apply s).mem = s.mem := by
  cases e with
  | arith ldcc dst r invert => exact finishArith_mem ldcc dst r invert s
  | logic ldcc dst res carry => exact finishLogic_mem ldcc dst res carry s
  | load ea dst => exact loadFrom_mem ea dst s
  | store ea dst => cases h
  | branch cond off => exact branchIf_mem cond off s

theorem Effect.apply_flags {e : Effect} (h : e.setsFlags = false) (s : State) : (e.apply s).flags = s.flags := by
  cases e with
  | arith ldcc dst r invert => cases h; exact finishArith_flags false dst r invert s
  | logic ldcc dst res carry => cases h; exact finishLogic_flags false dst res carry s
  | load ea dst => exact loadFrom_flags ea dst s
  | store ea dst => exact storeTo_flags ea dst s
  | branch cond off => exact branchIf_flags cond off s

theorem Effect.apply_readReg {e : Effect} {q : Reg} (hd : e.destination ≠ some q)
    (hb : e.branchOf = none ∨ q ≠ .r7) (s : State) : (e.apply s).readReg q = s.readReg q := by
  cases e with
  | arith ldcc dst r invert =>
    exact finishArith_readReg_of_ne ldcc dst r invert s q fun h => hd (congrArg some h.symm)
  | logic ldcc dst res carry =>
    exact finishLogic_readReg_of_ne ldcc dst res carry s q fun h => hd (congrArg some h.symm)
  | load ea dst => exact loadFrom_readReg_of_ne ea dst q s fun h => hd (congrArg some h.symm)
  | store ea dst => exact storeTo_readReg ea dst q s
  | branch cond off => exact branchIf_readReg_of_ne cond off q s (hb.resolve_left (Option.some_ne_none _))

/-! ### An effect is its discarding form and then the write of its destination -/

theorem Effect.discard_of_destination_none {e : Effect} (h : e.destination = none) : e.discard = e := by
  cases e with
  | arith | logic | load => cases h
  | store | branch => rfl

theorem Effect.apply_eq_writeReg {e : Effect} {d : Reg} (h : e.destination = some d) (s : State) :
    ∃ v, e.apply s = (e.discard.apply s).writeReg d v := by
  cases e with
  | arith ldcc dst r invert => cases h; exact ⟨r.sum, rfl⟩
  | logic ldcc dst res carry => cases h; exact ⟨res, rfl⟩
  | load ea dst => cases h; exact ⟨s.memRead ea, rfl⟩
  | store | branch => cases h

theorem Effect.apply_discard_agrees (e : Effect) (s : State) :
    (e.discard.apply s).flags = (e.apply s).flags ∧ (e.discard.apply s).sc = (e.apply s).sc ∧
      (∀ a, (e.discard.apply s).memRead a = (e.apply s).memRead a) ∧
      ∀ q, e.destination ≠ some q → (e.discard.apply s).readReg q = (e.apply s).readReg q := by
  cases hd : e.destination with
  | none => simp [Effect.discard_of_destination_none hd]
  | some d =>
    obtain ⟨v, hv⟩ := Effect.apply_eq_writeReg hd s
    rw [hv]
    refine ⟨by simp, by simp, by simp, fun q hq => ?_⟩
    exact (State.readReg_writeReg_of_ne d q v _ fun h => hq (congrArg some h.symm)).symm

end Sys2Proof.Machine
end

section
/-! SC is hidden state (spec/10_state.md R20): nothing that an instruction reads depends on it, so a run from a state
with another SC is the same run but for SC. -/

namespace Sys2Proof.Machine

open Sys2Proof Sys2Proof.Stated

theorem State.setSc_setSc (b c : Bool) (s : State) : (s.setSc b).setSc c = s.setSc c := rfl
theorem State.setSc_self (s : State) : s.setSc s.sc = s := rfl

/-! ### No operation sees the SC it starts with -/

theorem State.writeReg_setSc (r : Reg) (v : Word) (b : Bool) (s : State) :
    (s.setSc b).writeReg r v = (s.writeReg r v).setSc b := by cases r <;> rfl
theorem State.updateFlags_setSc (l : Bool) (g : Flags) (b : Bool) (s : State) :
    (s.setSc b).updateFlags l g = (s.updateFlags l g).setSc b := rfl

theorem finishArith_setSc (l : Bool) (dst : Reg) (r : AdderOut) (inv b : Bool) (s : State) :
    finishArith l dst r inv (s.setSc b) = (finishArith l dst r inv s).setSc b := by
  rw [finishArith, State.updateFlags_setSc, State.writeReg_setSc]
  rfl
theorem finishLogic_setSc (l : Bool) (dst : Reg) (res : Word) (carry b : Bool) (s : State) :
    finishLogic l dst res carry (s.setSc b) = (finishLogic l dst res carry s).setSc b := by
  rw [finishLogic, State.updateFlags_setSc, State.writeReg_setSc]
  rfl
theorem loadFrom_setSc (ea : Word) (dst : Reg) (b : Bool) (s : State) :
    loadFrom ea dst (s.setSc b) = (loadFrom ea dst s).setSc b := State.writeReg_setSc dst _ b s
theorem storeTo_setSc (ea : Word) (dst : Reg) (b : Bool) (s : State) :
    storeTo ea dst (s.setSc b) = (storeTo ea dst s).setSc b := by
  unfold storeTo
  rw [State.readReg_setSc]
  rfl
theorem branchIf_setSc (cond : Cond) (off : Word) (b : Bool) (s : State) :
    branchIf cond off (s.setSc b) = (branchIf cond off s).setSc b := by
  rw [branchIf_eq, branchIf_eq]
  rfl

theorem Effect.apply_setSc (e : Effect) (b : Bool) (s : State) : e.apply (s.setSc b) = (e.apply s).setSc b := by
  cases e with
  | arith ldcc dst r invert => exact finishArith_setSc ldcc dst r invert b s
  | logic ldcc dst res carry => exact finishLogic_setSc ldcc dst res carry b s
  | load ea dst => exact loadFrom_setSc ea dst b s
  | store ea dst => exact storeTo_setSc ea dst b s
  | branch cond off => exact branchIf_setSc cond off b s

/-- The operands an instruction reads do not depend on SC. -/
theorem effect_setSc (i : Instr) (b : Bool) (s : State) : effect i (s.setSc b) = effect i s := by
  cases i <;>
    simp [effect, operandAReg, operandBReg, operandAImm, shifterCarryReg, effectiveAddressReg, effectiveAddressImm]

/-- The shifter overwrites SC or leaves it. -/
theorem exists_afterShifter_setSc (i : Instr) (b : Bool) (s : State) :
    ∃ c, afterShifter i (s.setSc b) = (afterShifter i s).setSc c := by
  unfold afterShifter
  split
  · next a h _ =>
    exact ⟨(runShifter a h s).sc, by simp [runShifter, shifterCarryReg, State.setSc_setSc]⟩
  · exact ⟨b, rfl⟩

/-! ### From an instruction to a run -/

theorem exec_setSc (i : Instr) (b : Bool) (s : State) :
    ∃ t c, exec i s = .next t ∧ exec i (s.setSc b) = .next (t.setSc c) := by
  obtain ⟨c, hc⟩ := exists_afterShifter_setSc i b s
  refine ⟨_, c, exec_eq_effect i s, ?_⟩
  rw [exec_eq_effect, effect_setSc, hc, Effect.apply_setSc]

theorem step_setSc (b : Bool) (s : State) : ∃ t c, step s = .next t ∧ step (s.setSc b) = .next (t.setSc c) :=
  exec_setSc (decode s.fetchWord) b s.advancePc

theorem run_setSc (n : Nat) (b : Bool) (s : State) :
    ∃ t c, Safety.run n s = .next t ∧ Safety.run n (s.setSc b) = .next (t.setSc c) := by
  induction n generalizing s b with
  | zero => exact ⟨s, b, rfl, rfl⟩
  | succ n ih =>
    obtain ⟨t, c, hs, hb⟩ := step_setSc b s
    rw [Safety.run_succ_of_next n _ _ hs, Safety.run_succ_of_next n _ _ hb]
    exact ih c t

end Sys2Proof.Machine
end

section
/-! Every function from address to word as a memory (spec/10_state.md R24): the image that lists all its words. -/

namespace Sys2Proof.Machine

open Sys2Proof

/-- The words of `f`, from address 0 to the last. -/
def wordsOf (f : Word → Word) : List Word := (List.range Config.memWords).map fun k => f (BitVec.ofNat 16 k)

theorem wordsOf_length (f : Word → Word) : (wordsOf f).length = Config.memWords := by
  simp [wordsOf]

theorem wordsOf_getD (f : Word → Word) (a d : Word) : (wordsOf f).getD a.toNat d = f a := by
  have ha : a.toNat < Config.memWords := a.isLt
  simp [wordsOf, ha]

theorem Memory.wf_ofWordsFrom_wordsOf (f : Word → Word) : (Memory.ofWordsFrom 0 (wordsOf f)).wf :=
  Memory.wf_ofWordsFrom 0 _ (by rw [wordsOf_length, Nat.zero_add])

theorem Memory.read_ofWordsFrom_wordsOf (f : Word → Word) (a : Word) :
    (Memory.ofWordsFrom 0 (wordsOf f)).read a = f a := by
  rw [Memory.read, Memory.readAt_ofWordsFrom, if_pos (Nat.zero_le _), Nat.sub_zero, wordsOf_getD]

end Sys2Proof.Machine
end

section
/-! The packed condition code (spec/10_state.md R18). -/

namespace Sys2Proof.Machine

open Sys2Proof

/-- The bits of the packed condition code, for each of the sixteen values of the flags. -/
theorem State.cc_bits (s : State) :
    s.cc.getLsbD 0 = s.flags.c ∧ s.cc.getLsbD 1 = s.flags.v ∧ s.cc.getLsbD 2 = s.flags.z ∧
      s.cc.getLsbD 3 = s.flags.n := by
  unfold State.cc
  obtain ⟨c, v, z, n⟩ := s.flags
  revert c v z n
  decide

end Sys2Proof.Machine
end

section
/-! The statements about the state (spec/10_state.md). -/

namespace Sys2Proof.Proofs

open Sys2Proof Sys2Proof.Machine Sys2Proof.Stated

/-- Settles O59: the two runs differ in SC alone at every step (`run_setSc`), by induction on the number of steps. -/
theorem noProgramObservesSc : Obligations.NoProgramObservesSc := by
  intro n s b
  obtain ⟨t, c, hs, hb⟩ := run_setSc n b s
  exact ⟨t, t.setSc c, hs, hb, State.setSc_self t⟩

/-- Settles O2: an instruction is its discarding form followed by the write of its destination. -/
theorem slotZeroDiscardsWrites : Obligations.SlotZeroDiscardsWrites := by
  refine ⟨fun _ _ => rfl, fun s r v hr => ?_, fun i s => ?_⟩
  · exact ⟨(State.readReg_writeReg_self r v s).trans (if_neg hr), fun q => State.readReg_writeReg_of_ne r q v s,
      State.writeReg_flags r v s, State.writeReg_sc r v s, State.writeReg_mem r v s⟩
  · refine ⟨_, _, exec_eq_effect i s, exec_eq_effect (discarding i) s, ?_⟩
    rw [effect_discarding, afterShifter_discarding, ← effect_destination i s]
    exact Effect.apply_discard_agrees _ _

/-- Settles O6: the memory whose image lists every word of the function, in order of address. -/
theorem everyInitialMemoryIsAState : Obligations.EveryInitialMemoryIsAState :=
  fun f => ⟨_, Memory.wf_ofWordsFrom_wordsOf f, Memory.read_ofWordsFrom_wordsOf f⟩

/-- Settles O52: of the five effects only a store writes memory. -/
theorem onlyStoresWriteMemory : Obligations.OnlyStoresWriteMemory := by
  intro i s t hi h
  rw [eq_effect_of_exec h, Effect.apply_mem ((effect_isStore i s).trans hi), afterShifter_mem]

/-- Settles O53: of the five effects only an arithmetic or logic one with ldcc set writes a flag. -/
theorem onlyFlagSettersWriteFlags : Obligations.OnlyFlagSettersWriteFlags := by
  intro i s t hi h
  rw [eq_effect_of_exec h, Effect.apply_flags ((effect_setsFlags i s).trans hi), afterShifter_flags]

/-- Settles O54: an effect writes its destination, a branch's the pc, and no other slot. -/
theorem onlyTheDestinationIsWritten : Obligations.OnlyTheDestinationIsWritten := by
  intro i s t q hd hb h
  rw [← effect_destination i s] at hd
  rw [← effect_branchOf i s] at hb
  rw [eq_effect_of_exec h, Effect.apply_readReg hd hb, afterShifter_readReg]

/-- Settles O1, slot by slot from the definition of a register read. -/
theorem registerReadGivesZeroOrStored : Obligations.RegisterReadGivesZeroOrStored :=
  fun s => ⟨s.readReg_r0, fun v => (s.writeReg .r0 v).readReg_r0, s.readReg_r1, s.readReg_r2, s.readReg_r3,
    s.readReg_r4, s.readReg_r5, s.readReg_r6, s.readReg_r7⟩

/-- Settles O3: slot 7 is read from and written to the field `pc`, which the fetch reads and the step increments. -/
theorem slotSevenIsThePc : Obligations.SlotSevenIsThePc := by
  intro s v
  have hnext : (s.advancePc.readReg .r7).toNat = (s.pc.toNat + 1) % 65536 := by
    rw [State.readReg_r7, State.advancePc_pc, BitVec.toNat_add]
    rfl
  exact ⟨s.readReg_r7, rfl, rfl, hnext, rfl⟩

/-- Settles O8: the packed condition code by its bits (`State.cc_bits`), the slots by the register read. -/
theorem inspectionShowsState : Obligations.InspectionShowsState :=
  fun s => ⟨s.cc_bits, s.readReg_r0, s.readReg_r7, rfl⟩

/-- Settles O10: each field holds the value it was launched with, and the empty list names no word. -/
theorem resetStateValues : Obligations.ResetStateValues :=
  ⟨rfl, fun q => by cases q <;> rfl, rfl, rfl, fun _ => rfl⟩

end Sys2Proof.Proofs
end

section
/-! The canonical form determines a memory (spec/20_memory.md R30): its cells are the addresses that do not read as
unlisted, each with the word it reads as, in order of address. -/

namespace Sys2Proof.Machine

open Sys2Proof

theorem Memory.readAt_of_mem {m : Memory} (hs : m.Pairwise (fun a b => a.1 < b.1)) {c : Cell} (hc : c ∈ m) :
    m.readAt c.1 = c.2 := by
  induction m with
  | nil => cases hc
  | cons d m ih =>
    obtain ⟨hd, hm⟩ := List.pairwise_cons.mp hs
    rcases List.mem_cons.mp hc with rfl | hc
    · exact if_pos rfl
    · rw [Memory.readAt, if_neg (hd c hc).ne]
      exact ih hm hc

/-- Only a listed word reads as other than the unlisted one. -/
theorem Memory.mem_of_readAt {m : Memory} {c : Cell} (hr : m.readAt c.1 = c.2) (hv : c.2 ≠ Config.unlistedWord) :
    c ∈ m := by
  induction m with
  | nil => exact absurd hr.symm hv
  | cons d m ih =>
    rw [Memory.readAt] at hr
    by_cases hd : d.1 = c.1
    · rw [if_pos hd] at hr
      exact Prod.ext hd hr ▸ List.mem_cons_self
    · rw [if_neg hd] at hr
      exact List.mem_cons_of_mem _ (ih hr)

theorem Memory.read_ofNat (m : Memory) {a : Nat} (ha : a < Config.memWords) :
    m.read (BitVec.ofNat 16 a) = m.readAt a :=
  congrArg m.readAt (Nat.mod_eq_of_lt ha)

/-- The cells of a canonical memory by what it reads as. -/
theorem Memory.mem_iff_read {m : Memory} (h : m.wf) (c : Cell) :
    c ∈ m ↔ c.1 < Config.memWords ∧ c.2 ≠ Config.unlistedWord ∧ m.read (BitVec.ofNat 16 c.1) = c.2 := by
  obtain ⟨hs, hcells⟩ := h
  constructor
  · intro hc
    obtain ⟨ha, hv⟩ := hcells c hc
    exact ⟨ha, hv, (m.read_ofNat ha).trans (Memory.readAt_of_mem hs hc)⟩
  · rintro ⟨ha, hv, hr⟩
    exact Memory.mem_of_readAt ((m.read_ofNat ha).symm.trans hr) hv

/-- Lists with strictly rising addresses and the same cells are equal. -/
theorem Memory.eq_of_mem_iff {m m' : Memory} (h : m.Pairwise (fun a b => a.1 < b.1))
    (h' : m'.Pairwise (fun a b => a.1 < b.1)) (hc : ∀ c, c ∈ m ↔ c ∈ m') : m = m' := by
  have : Std.Irrefl (fun a b : Cell => a.1 < b.1) := ⟨fun c => lt_irrefl c.1⟩
  have : Std.Antisymm (fun a b : Cell => a.1 < b.1) := ⟨fun _ _ hab hba => absurd hba hab.not_gt⟩
  exact h.eq_of_mem_iff h' hc

end Sys2Proof.Machine
end

section
/-! What a step does to memory and to the memory port, said once (spec/20_memory.md R33, R36, R39): the port carries
the data access of the instruction's effect, and memory changes by the writes on the port alone. -/

namespace Sys2Proof.Machine

open Sys2Proof Sys2Proof.Stated

/-! ### The data access of an effect -/

/-- The data access of an effect on `s`: a read for a load, a write for a store. -/
def Effect.accesses : Effect → State → List PortAccess
  | .load ea _, _ => [.read ea]
  | .store ea dst, s => [.write ea (s.readReg dst)]
  | .arith _ _ _ _, _ | .logic _ _ _ _, _ | .branch _ _, _ => []

/-- Whether the effect reads memory. -/
def Effect.isLoad : Effect → Bool
  | .load _ _ => true
  | .arith _ _ _ _ | .logic _ _ _ _ | .store _ _ | .branch _ _ => false

@[simp] theorem effect_isLoad (i : Instr) (s : State) : (effect i s).isLoad = Stated.isLoad i := by
  cases i <;> rfl
theorem effect_accesses (i : Instr) (s : State) : (effect i s).accesses s = dataAccess i s := by
  cases i <;> rfl
@[simp] theorem Effect.accesses_afterShifter (e : Effect) (i : Instr) (s : State) :
    e.accesses (afterShifter i s) = e.accesses s := by
  cases e with
  | store ea dst => simp [Effect.accesses]
  | arith | logic | load | branch => rfl

/-- A load makes one read, of the word that its destination receives. -/
theorem Effect.accesses_of_isLoad {e : Effect} (h : e.isLoad = true) (s : State) :
    ∃ ea, e.accesses s = [.read ea] ∧
      ∀ q, q ≠ .r0 → e.destination = some q → (e.apply s).readReg q = s.memRead ea := by
  cases e with
  | load ea dst =>
    refine ⟨ea, rfl, fun q hq hd => ?_⟩
    cases hd
    exact (loadFrom_readReg_dst ea dst s).trans (if_neg hq)
  | arith | logic | store | branch => cases h

theorem Effect.accesses_of_isStore {e : Effect} (h : e.isStore = true) (s : State) :
    ∃ ea v, e.accesses s = [.write ea v] := by
  cases e with
  | store ea dst => exact ⟨ea, s.readReg dst, rfl⟩
  | arith | logic | load | branch => cases h

theorem Effect.accesses_eq_nil {e : Effect} (hl : e.isLoad = false) (hs : e.isStore = false) (s : State) :
    e.accesses s = [] := by
  cases e with
  | load => cases hl
  | store => cases hs
  | arith | logic | branch => rfl

theorem Effect.accesses_length_le (e : Effect) (s : State) : (e.accesses s).length ≤ 1 := by
  cases e with
  | load | store => exact Nat.le_refl 1
  | arith | logic | branch => exact Nat.zero_le 1

/-! ### The stores on the port -/

/-- The address and word of a write. -/
def PortAccess.stored : PortAccess → Option (Word × Word)
  | .read _ => none
  | .write a v => some (a, v)

@[simp] theorem PortAccess.stored_read (a : Word) : (PortAccess.read a).stored = none := rfl
@[simp] theorem PortAccess.stored_write (a v : Word) : (PortAccess.write a v).stored = some (a, v) := rfl

@[simp] theorem lastStored_nil (a : Word) : lastStored [] a = none := rfl
@[simp] theorem lastStored_singleton (b v a : Word) :
    lastStored [(b, v)] a = if b = a then some v else none := by
  by_cases h : b = a <;> simp [lastStored, h]

/-- A later store hides an earlier one. -/
theorem lastStored_append (xs ys : List (Word × Word)) (a : Word) :
    lastStored (xs ++ ys) a = (lastStored ys a).or (lastStored xs a) := by
  simp [lastStored, List.find?_append, Option.map_or]

theorem storesOfRun_succ_of_next {s t : State} (h : step s = .next t) (n : Nat) :
    storesOfRun (n + 1) s = (portAccesses s).filterMap PortAccess.stored ++ storesOfRun n t := by
  rw [storesOfRun, h]
  rfl

/-! ### Memory after an effect -/

theorem Effect.apply_memRead (e : Effect) (s : State) (a : Word) :
    (e.apply s).memRead a = (lastStored ((e.accesses s).filterMap PortAccess.stored) a).getD (s.memRead a) := by
  cases e with
  | arith ldcc dst r invert => exact finishArith_memRead ldcc dst r invert s a
  | logic ldcc dst res carry => exact finishLogic_memRead ldcc dst res carry s a
  | load ea dst => exact loadFrom_memRead ea a dst s
  | store ea dst =>
    have hw : ((Effect.store ea dst).apply s).memRead a = if ea = a then s.readReg dst else s.memRead a :=
      storeTo_memRead ea a dst s
    rw [hw]
    by_cases ha : ea = a <;> simp [Effect.accesses, ha]
  | branch cond off => exact State.memRead_congr _ _ (branchIf_mem cond off s) a

theorem Effect.wf_apply_mem (e : Effect) {s : State} (h : s.mem.wf) : (e.apply s).mem.wf := by
  cases e with
  | store ea dst => exact State.wf_memWrite ea (s.readReg dst) s h
  | arith | logic | load | branch => rwa [Effect.apply_mem rfl]

/-! ### From an effect to a step -/

/-- The effect of the instruction that a step executes, its operands read after the pc's increment. -/
def stepEffect (s : State) : Effect := effect (decode s.fetchWord) s.advancePc

/-- The state that a step's effect is applied to. -/
def beforeEffect (s : State) : State := afterShifter (decode s.fetchWord) s.advancePc

/-- Every step completes, by the effect of the fetched instruction. -/
theorem step_eq_effect (s : State) : step s = .next ((stepEffect s).apply (beforeEffect s)) :=
  exec_eq_effect _ _

/-- The one state that `step` answers. -/
theorem eq_effect_of_step {s t : State} (h : step s = .next t) : t = (stepEffect s).apply (beforeEffect s) :=
  eq_effect_of_exec h

@[simp] theorem stepEffect_isLoad (s : State) : (stepEffect s).isLoad = isLoad (decode s.fetchWord) :=
  effect_isLoad _ _
@[simp] theorem stepEffect_isStore (s : State) : (stepEffect s).isStore = isStore (decode s.fetchWord) :=
  effect_isStore _ _
@[simp] theorem stepEffect_destination (s : State) :
    (stepEffect s).destination = destination (decode s.fetchWord) := effect_destination _ _

@[simp] theorem beforeEffect_mem (s : State) : (beforeEffect s).mem = s.mem := afterShifter_mem _ _
@[simp] theorem beforeEffect_memRead (s : State) (a : Word) : (beforeEffect s).memRead a = s.memRead a :=
  State.memRead_congr _ _ (beforeEffect_mem s) a

/-- The port carries the fetch and then the effect's data access. -/
theorem portAccesses_eq (s : State) :
    portAccesses s = .read s.pc :: (stepEffect s).accesses (beforeEffect s) := by
  rw [beforeEffect, Effect.accesses_afterShifter, stepEffect, effect_accesses]
  rfl

theorem portAccesses_length_le (s : State) : (portAccesses s).length ≤ 2 := by
  rw [portAccesses_eq]
  exact Nat.succ_le_succ (Effect.accesses_length_le _ _)

/-- Memory after a step differs from memory before it by the writes on the port alone. -/
theorem memRead_of_step {s t : State} (h : step s = .next t) (a : Word) :
    t.memRead a = (lastStored ((portAccesses s).filterMap PortAccess.stored) a).getD (s.memRead a) := by
  rw [eq_effect_of_step h, Effect.apply_memRead, beforeEffect_memRead, portAccesses_eq]
  rfl

/-- After a step whose port carries the fetch and one write, memory has that one word changed. -/
theorem memRead_of_step_of_write {s t : State} {ea v : Word} (h : step s = .next t)
    (hp : portAccesses s = [.read s.pc, .write ea v]) (a : Word) :
    t.memRead a = if ea = a then v else s.memRead a := by
  rw [memRead_of_step h, hp]
  by_cases ha : ea = a <;> simp [List.filterMap_cons, ha]

end Sys2Proof.Machine
end

section
/-! The statements about memory (spec/20_memory.md). -/

namespace Sys2Proof.Proofs

open Sys2Proof Sys2Proof.Machine Sys2Proof.Stated

/-- Settles O50: the one write that an effect can make keeps the canonical form. -/
theorem stepKeepsMemoryCanonical : Obligations.StepKeepsMemoryCanonical := by
  intro s t hs h
  rw [Safety.Inv, ← beforeEffect_mem s] at hs
  rw [eq_effect_of_step h]
  exact Effect.wf_apply_mem (stepEffect s) hs

/-- Settles O57, by induction on the number of steps: a store of the later steps hides one of the first step, and the
first step changes memory by its own stores alone (`memRead_of_step`). -/
theorem memoryHoldsTheLastStore : Obligations.MemoryHoldsTheLastStore := by
  intro n s t h a
  induction n generalizing s with
  | zero => cases h; rfl
  | succ n ih =>
    have hu := step_eq_effect s
    rw [Safety.run_succ_of_next n s _ hu] at h
    rw [ih _ h, memRead_of_step hu, storesOfRun_succ_of_next hu, lastStored_append, Option.getD_or]

/-- Settles O5: both lists have the same cells (`Memory.mem_iff_read`) in the same order. -/
theorem canonicalMemoriesAreEqualWhenTheyReadAlike : Obligations.CanonicalMemoriesAreEqualWhenTheyReadAlike := by
  intro m m' h h' hr
  refine Memory.eq_of_mem_iff h.1 h'.1 fun c => ?_
  rw [Memory.mem_iff_read h, Memory.mem_iff_read h', hr]

/-- Settles O56: the port carries the fetch and the data access of the instruction's effect, and memory changes by the
writes on the port alone. -/
theorem portAccessesOfAStep : Obligations.PortAccessesOfAStep := by
  intro s
  have ht := step_eq_effect s
  rw [← stepEffect_isLoad, ← stepEffect_isStore, ← stepEffect_destination]
  refine ⟨_, ht, rfl, portAccesses_length_le s, fun hl => ?_, fun hs => ?_, fun hl hs => ?_⟩
  · obtain ⟨ea, hacc, hread⟩ := Effect.accesses_of_isLoad hl (beforeEffect s)
    rw [beforeEffect_memRead] at hread
    exact ⟨ea, by rw [portAccesses_eq, hacc], hread⟩
  · obtain ⟨ea, v, hacc⟩ := Effect.accesses_of_isStore hs (beforeEffect s)
    have hp : portAccesses s = [.read s.pc, .write ea v] := by rw [portAccesses_eq, hacc]
    have hmem := memRead_of_step_of_write ht hp
    exact ⟨ea, v, hp, (hmem ea).trans (if_pos rfl), fun a ha => (hmem a).trans (if_neg ha.symm)⟩
  · have hp : portAccesses s = [.read s.pc] := by rw [portAccesses_eq, Effect.accesses_eq_nil hl hs]
    refine ⟨hp, fun a => ?_⟩
    rw [memRead_of_step ht, hp]
    rfl

/-- Settles O58: the next fetch reads the word that the write on the port put there. -/
theorem storeIsSeenByTheNextFetch : Obligations.StoreIsSeenByTheNextFetch := by
  intro s ea v hp
  have ht := step_eq_effect s
  refine ⟨_, ht, fun hpc => ?_, rfl⟩
  have hfetch := memRead_of_step_of_write ht hp ea
  rw [if_pos rfl, ← hpc] at hfetch
  rw [step, State.fetchWord, hfetch]

/-- Settles O4: reads after a write (`State.memRead_memWrite`), and the frame of a write. -/
theorem memoryWriteChangesOneWord : Obligations.MemoryWriteChangesOneWord :=
  fun s a v => ⟨(State.memRead_memWrite a a v s).trans (if_pos rfl),
    fun b hb => (State.memRead_memWrite a b v s).trans (if_neg hb.symm),
    fun q => State.readReg_memWrite a v q s, State.memWrite_flags a v s, State.memWrite_sc a v s⟩

/-- Settles O51: the memory at reset lists nothing, and a reset event does not touch memory. -/
theorem resetMemoryIsCanonical : Obligations.ResetMemoryIsCanonical :=
  ⟨Memory.wf_nil, fun _ _ h => h⟩

end Sys2Proof.Proofs
end

section
/-! How the encoder and the decoder act on each of the three formats (spec/30_encoding.md R54 to R56, R60), and that
every decoded instruction has an encoding. -/

namespace Sys2Proof

/-! ### Encoding what the decoder assembles -/

/-- The encoder writes back the fields that the decoder assembles an instruction from, in the format of its opcode. -/
theorem encode_decodeFields (op : Opcode) (t2 l : Bool) (d a b : Reg) (h : ShiftCode) (imm : Word) (c : Cond)
    (off : Word) :
    encode (decodeFields op t2 l d a b h imm c off) =
      if op = .branch then encodeBranch c off
      else if t2 then encodeImm op l d a imm else encodeReg op l d a b h := by
  cases op with
  | branch => cases c <;> rfl
  | loadStore => cases t2 <;> cases l <;> rfl
  | add | adc | sub | sbc | and | or => cases t2 <;> rfl

/-! ### Decoding an encoded format -/

/-- Below the opcode branch a type-1 word gives back every field it was encoded from. -/
theorem decode_encodeReg {op : Opcode} (hop : op ≠ .branch) (l : Bool) (d a b : Reg) (h : ShiftCode) :
    decode (encodeReg op l d a b h) = decodeFields op false l d a b h 0 .al 0 := by
  cases op with
  | branch => exact absurd rfl hop
  | add | adc | sub | sbc | and | or | loadStore => simp [decode, decodeFields]

/-- Below the opcode branch a type-2 word gives back every field it was encoded from. -/
theorem decode_encodeImm {op : Opcode} (hop : op ≠ .branch) (l : Bool) (d a : Reg) {imm : Word}
    (himm : fitsImm5 imm = true) :
    decode (encodeImm op l d a imm) = decodeFields op true l d a .r0 .none imm .al 0 := by
  cases op with
  | branch => exact absurd rfl hop
  | add | adc | sub | sbc | and | or | loadStore => simp [decode, decodeFields, sext5_setWidth imm himm]

theorem decode_encodeBranch (c : Cond) {off : Word} (hoff : fitsOff8 off = true) :
    decode (encodeBranch c off) = decodeBranch c off := by
  simp [decode, decodeFields, sext8_setWidth off hoff]

/-! ### Decoded instructions are well-formed -/

theorem wellFormed_decodeBranch (c : Cond) (off : Word) : (decodeBranch c off).wellFormed = fitsOff8 off := by
  cases c <;> rfl

theorem wellFormed_decodeFields (op : Opcode) (t2 l : Bool) (d a b : Reg) (h : ShiftCode) (c : Cond) {imm off : Word}
    (himm : fitsImm5 imm = true) (hoff : fitsOff8 off = true) :
    (decodeFields op t2 l d a b h imm c off).wellFormed = true := by
  cases op with
  | branch => exact (wellFormed_decodeBranch c off).trans hoff
  | loadStore =>
    cases t2 with
    | false => cases l <;> rfl
    | true => cases l <;> exact himm
  | add | adc | sub | sbc | and | or =>
    cases t2 with
    | false => rfl
    | true => exact himm

theorem wellFormed_decode (w : Word) : (decode w).wellFormed = true :=
  wellFormed_decodeFields _ _ _ _ _ _ _ _ (fitsImm5_sext5 _) (fitsOff8_sext8 _)

/-! ### The round trip from an instruction -/

/-- Each constructor is encoded in one of the three formats, whose fields decoding reads back. -/
theorem decode_encode {i : Instr} (hi : i.wellFormed = true) : decode (encode i) = i := by
  cases i with
  | addReg | adcReg | subReg | sbcReg | andReg | orReg | ldReg | stReg => exact decode_encodeReg (by decide) ..
  | addImm | adcImm | subImm | sbcImm | andImm | orImm | ldImm | stImm => exact decode_encodeImm (by decide) _ _ _ hi
  | bal | bnv | bhi | bls | bcc | bcs | bne | beq | bvc | bvs | bpl | bmi | bge | blt | bgt | ble =>
    exact decode_encodeBranch _ hi

end Sys2Proof
end

section
/-! The ignored bit of a branch word (spec/30_encoding.md R62, D15). -/

namespace Sys2Proof

/-! ### Which words are branches -/

/-- The opcode bits of a word in their place. -/
theorem and_E000 (w : Word) : w &&& 0xE000 = place (opcodeBits w) 13 := by
  simp only [opcodeBits, place]
  ext i hi
  interval_cases i <;> simp

theorem opcode_eq_branch_iff_mask (w : Word) :
    Opcode.ofBits (opcodeBits w) = .branch ↔ w &&& 0xE000 = 0xE000 := by
  rw [and_E000]
  generalize opcodeBits w = b
  revert b
  decide

theorem opcode_eq_branch_iff_bits (w : Word) :
    Opcode.ofBits (opcodeBits w) = .branch ↔ (w.getLsbD 15 && w.getLsbD 14 && w.getLsbD 13) = true := by
  have hbits : ∀ b : BitVec 3, Opcode.ofBits b = .branch ↔ (b.getLsbD 2 && b.getLsbD 1 && b.getLsbD 0) = true := by
    decide
  rw [hbits]
  simp [opcodeBits]

/-! ### The word without the ignored bit -/

/-- The word with the bit that decoding ignores written 0 (R62, D15). -/
def canonicalWord (w : Word) : Word :=
  if w.getLsbD 15 && w.getLsbD 14 && w.getLsbD 13 then w &&& 0xEFFF else w

theorem canonicalWord_of_branch {w : Word} (h : Opcode.ofBits (opcodeBits w) = .branch) :
    canonicalWord w = w &&& 0xEFFF :=
  if_pos ((opcode_eq_branch_iff_bits w).mp h)

theorem canonicalWord_of_not_branch {w : Word} (h : Opcode.ofBits (opcodeBits w) ≠ .branch) : canonicalWord w = w :=
  if_neg fun hw => h ((opcode_eq_branch_iff_bits w).mpr hw)

/-- All bits but bit 12 are the opcode, the condition and the offset of a branch word. -/
theorem and_EFFF (w : Word) :
    w &&& 0xEFFF = place (opcodeBits w) 13 ||| place (condBits w) 8 ||| place (off8Bits w) 0 := by
  simp only [opcodeBits, condBits, off8Bits, place]
  ext i hi
  interval_cases i <;> simp

/-! ### Bit 12 and the other bits -/

theorem or_typeBit (w : Word) : w &&& 0xEFFF ||| place (BitVec.ofBool (typeBit w)) 12 = w := by
  simp only [typeBit, place]
  ext i hi
  interval_cases i <;> simp

theorem or_not_typeBit (w : Word) :
    w &&& 0xEFFF ||| place (BitVec.ofBool (!typeBit w)) 12 = w ^^^ 0x1000 := by
  simp only [typeBit, place]
  ext i hi
  interval_cases i <;> simp

theorem xor_1000_and_EFFF (w : Word) : (w ^^^ 0x1000) &&& 0xEFFF = w &&& 0xEFFF := by
  ext i hi
  interval_cases i <;> simp

/-- Words that agree but for bit 12 are equal, or one is the other with that bit flipped. -/
theorem and_EFFF_eq_iff (w w' : Word) : w &&& 0xEFFF = w' &&& 0xEFFF ↔ w = w' ∨ w' = w ^^^ 0x1000 := by
  constructor
  · intro h
    by_cases ht : typeBit w' = typeBit w
    · exact .inl (by rw [← or_typeBit w, h, ← ht, or_typeBit])
    · exact .inr (by rw [← or_not_typeBit, h, ← Bool.eq_not_of_ne ht, or_typeBit])
  · rintro (rfl | rfl)
    · rfl
    · exact (xor_1000_and_EFFF w).symm

/-! ### The round trip from a word -/

theorem encode_decode (w : Word) : encode (decode w) = canonicalWord w := by
  rw [decode, encode_decodeFields]
  by_cases hop : Opcode.ofBits (opcodeBits w) = .branch
  · rw [if_pos hop, canonicalWord_of_branch hop, and_EFFF, encodeBranch, ← hop]
    simp
  · rw [if_neg hop, canonicalWord_of_not_branch hop]
    cases ht : typeBit w with
    | true =>
      conv_rhs => rw [word_eq_imm_fields w]
      simp [encodeImm, ht]
    | false =>
      conv_rhs => rw [word_eq_reg_fields w]
      simp [encodeReg, ht, place]

theorem decode_canonicalWord (w : Word) : decode (canonicalWord w) = decode w := by
  rw [← encode_decode, decode_encode (wellFormed_decode w)]

/-- Words decode alike exactly when they are alike but for the ignored bit. -/
theorem decode_eq_iff (w w' : Word) : decode w = decode w' ↔ canonicalWord w = canonicalWord w' := by
  constructor
  · intro h
    rw [← encode_decode, ← encode_decode, h]
  · intro h
    rw [← decode_canonicalWord w, ← decode_canonicalWord w', h]

theorem opcodeBits_xor_1000 (w : Word) : opcodeBits (w ^^^ 0x1000) = opcodeBits w := by
  simp only [opcodeBits]
  ext i hi
  interval_cases i <;> simp

theorem opcodeBits_canonicalWord (w : Word) : opcodeBits (canonicalWord w) = opcodeBits w := by
  unfold canonicalWord
  split
  · simp only [opcodeBits]
    ext i hi
    interval_cases i <;> simp
  · rfl

theorem canonicalWord_eq_iff (w w' : Word) :
    canonicalWord w = canonicalWord w' ↔ w = w' ∨ (w &&& 0xE000 = 0xE000 ∧ w' = w ^^^ 0x1000) := by
  rw [← opcode_eq_branch_iff_mask]
  constructor
  · intro h
    have hop : opcodeBits w = opcodeBits w' := by rw [← opcodeBits_canonicalWord w, h, opcodeBits_canonicalWord]
    by_cases hb : Opcode.ofBits (opcodeBits w) = .branch
    · rw [canonicalWord_of_branch hb, canonicalWord_of_branch (hop ▸ hb), and_EFFF_eq_iff] at h
      exact h.imp_right (And.intro hb)
    · rw [canonicalWord_of_not_branch hb, canonicalWord_of_not_branch (hop ▸ hb)] at h
      exact .inl h
  · rintro (rfl | ⟨hb, rfl⟩)
    · rfl
    · have hb' : Opcode.ofBits (opcodeBits (w ^^^ 0x1000)) = .branch := by
        rw [← hb, opcodeBits_xor_1000]
      rw [canonicalWord_of_branch hb, canonicalWord_of_branch hb', xor_1000_and_EFFF]

end Sys2Proof
end

section
/-! The rows of the opcode table (spec/30_encoding.md R65): each word matches the row of its own instruction, and no two
rows match one word. -/

namespace Sys2Proof

open Sys2Proof.Stated

/-! ### What the three masks of the table keep of a word -/

theorem and_F000 (w : Word) :
    w &&& 0xF000 = place (opcodeBits w) 13 ||| place (BitVec.ofBool (typeBit w)) 12 := by
  simp only [opcodeBits, typeBit, place]
  ext i hi
  interval_cases i <;> simp

theorem and_F800 (w : Word) :
    w &&& 0xF800 = place (opcodeBits w) 13 ||| place (BitVec.ofBool (typeBit w)) 12 |||
      place (BitVec.ofBool (ldccBit w)) 11 := by
  simp only [opcodeBits, typeBit, ldccBit, place]
  ext i hi
  interval_cases i <;> simp

theorem and_EF00 (w : Word) : w &&& 0xEF00 = place (opcodeBits w) 13 ||| place (condBits w) 8 := by
  simp only [opcodeBits, condBits, place]
  ext i hi
  interval_cases i <;> simp

/-! ### The row of an instruction that the decoder assembles -/

section
variable (t2 l : Bool) (d a b : Reg) (h : ShiftCode) (imm : Word) (c : Cond) (off : Word)

theorem tableRows_rowOf_alu {op : Opcode} (hls : op ≠ .loadStore) (hbr : op ≠ .branch) :
    tableRows[rowOf (decodeFields op t2 l d a b h imm c off)]? =
      some (place op.bits 13 ||| place (BitVec.ofBool t2) 12, 0xF000) := by
  cases op with
  | loadStore => exact absurd rfl hls
  | branch => exact absurd rfl hbr
  | add | adc | sub | sbc | and | or => cases t2 <;> rfl

theorem tableRows_rowOf_loadStore :
    tableRows[rowOf (decodeFields .loadStore t2 l d a b h imm c off)]? =
      some (place Opcode.loadStore.bits 13 ||| place (BitVec.ofBool t2) 12 ||| place (BitVec.ofBool l) 11, 0xF800) := by
  cases t2 <;> cases l <;> rfl

theorem tableRows_rowOf_branch :
    tableRows[rowOf (decodeFields .branch t2 l d a b h imm c off)]? =
      some (place Opcode.branch.bits 13 ||| place c.bits 8, 0xEF00) := by
  cases c <;> rfl

end

/-- Every word matches the row of the instruction it decodes to. -/
theorem word_matches_own_row (w : Word) :
    ∃ row, tableRows[rowOf (decode w)]? = some row ∧ w &&& row.2 = row.1 := by
  have hop : (Opcode.ofBits (opcodeBits w)).bits = opcodeBits w := Opcode.bits_ofBits _
  by_cases hbr : Opcode.ofBits (opcodeBits w) = .branch
  · rw [hbr] at hop
    rw [decode, hbr]
    refine ⟨_, tableRows_rowOf_branch .., ?_⟩
    rw [and_EF00, ← hop, Cond.bits_ofBits]
  by_cases hls : Opcode.ofBits (opcodeBits w) = .loadStore
  · rw [hls] at hop
    rw [decode, hls]
    exact ⟨_, tableRows_rowOf_loadStore .., by rw [and_F800, ← hop]⟩
  · exact ⟨_, tableRows_rowOf_alu (hls := hls) (hbr := hbr) .., by rw [and_F000, hop]⟩

/-- Two rows that match one word agree on the bits that both masks keep. -/
theorem and_mask_eq_of_matches {w : Word} {r r' : Word × Word} (h : w &&& r.2 = r.1) (h' : w &&& r'.2 = r'.1) :
    r.1 &&& r'.2 = r'.1 &&& r.2 := by
  rw [← h, ← h', BitVec.and_assoc, BitVec.and_assoc, BitVec.and_comm r.2]

/-- No two rows of the table agree on the bits that both masks keep. -/
theorem tableRows_disjoint : ∀ k k' : Fin tableRows.length,
    tableRows[k].1 &&& tableRows[k'].2 = tableRows[k'].1 &&& tableRows[k].2 → k = k' := by decide

/-- A word matches one row at most. -/
theorem row_unique {w : Word} {k k' : Nat} {r r' : Word × Word} (hk : tableRows[k]? = some r)
    (hk' : tableRows[k']? = some r') (h : w &&& r.2 = r.1) (h' : w &&& r'.2 = r'.1) : k = k' := by
  obtain ⟨hlt, rfl⟩ := List.getElem?_eq_some_iff.mp hk
  obtain ⟨hlt', rfl⟩ := List.getElem?_eq_some_iff.mp hk'
  exact congrArg Fin.val (tableRows_disjoint ⟨k, hlt⟩ ⟨k', hlt'⟩ (and_mask_eq_of_matches h h'))

end Sys2Proof
end

section
/-! Sign extension (spec/30_encoding.md R57, R58) and the words of the pseudo-instructions (R64). -/

namespace Sys2Proof

theorem tableWord_toNat (w : Word) : tableWord 16 w.toNat = w := by
  rw [tableWord, Nat.mod_eq_of_lt w.isLt, BitVec.ofNat_toNat, BitVec.setWidth_eq]

/-- Sign extension to a word ors the bits above the field in when the field's sign bit is set. -/
theorem signExtend_eq_or {n : Nat} (f : BitVec n) :
    f.signExtend 16 = if f.msb then BitVec.allOnes 16 <<< n ||| f.setWidth 16 else f.setWidth 16 := by
  ext i hi
  rw [BitVec.getElem_signExtend]
  by_cases hin : i < n
  · cases hs : f.msb <;> simp [hin]
  · have habove : f.getLsbD i = false := BitVec.getLsbD_of_ge f i (not_lt.mp hin)
    cases hs : f.msb <;> simp [hin, habove, -BitVec.reduceAllOnes]

theorem sext5_eq_or (f : BitVec 5) :
    sext5 f = if f.getLsbD 4 then 0xFFE0 ||| f.setWidth 16 else f.setWidth 16 :=
  signExtend_eq_or f

theorem sext8_eq_or (f : BitVec 8) :
    sext8 f = if f.getLsbD 7 then 0xFF00 ||| f.setWidth 16 else f.setWidth 16 :=
  signExtend_eq_or f

theorem fitsImm5_iff (m : Word) : fitsImm5 m = true ↔ -16 ≤ m.toInt ∧ m.toInt ≤ 15 := by
  simp [fitsImm5]

theorem fitsOff8_iff (m : Word) : fitsOff8 m = true ↔ -128 ≤ m.toInt ∧ m.toInt ≤ 127 := by
  simp [fitsOff8]

/-- The immediate field in its place is the low five bits. -/
theorem place_setWidth_5 (m : Word) : place (m.setWidth 5) 0 = m &&& 0x001F := by
  simp only [place]
  ext i hi
  interval_cases i <;> simp

/-! A field that holds slot 0 or no shift adds no bit to the word. -/

theorem place_zero (n lo : Nat) : place (0 : BitVec n) lo = 0 := by simp [place]
@[simp] theorem place_bits_r0 (lo : Nat) : place Reg.r0.bits lo = 0 := place_zero 3 lo
@[simp] theorem place_bits_none (lo : Nat) : place ShiftCode.none.bits lo = 0 := place_zero 2 lo

section
variable (op : Opcode) (l : Bool) (d a b : Reg) (h : ShiftCode) (imm : Word)

theorem encodeReg_r0_srcB :
    encodeReg op l d a .r0 h =
      place op.bits 13 ||| place (BitVec.ofBool l) 11 ||| place d.bits 8 ||| place a.bits 5 ||| place h.bits 0 := by
  simp [encodeReg]

theorem encodeReg_r0_srcB_none :
    encodeReg op l d a .r0 .none =
      place op.bits 13 ||| place (BitVec.ofBool l) 11 ||| place d.bits 8 ||| place a.bits 5 := by
  simp [encodeReg]

theorem encodeReg_r0_dst_none :
    encodeReg op l .r0 a b .none =
      place op.bits 13 ||| place (BitVec.ofBool l) 11 ||| place a.bits 5 ||| place b.bits 2 := by
  simp [encodeReg]

theorem encodeImm_r0_srcA :
    encodeImm op l d .r0 imm =
      place op.bits 13 ||| place (1 : BitVec 1) 12 ||| place (BitVec.ofBool l) 11 ||| place d.bits 8 |||
        (imm &&& 0x001F) := by
  simp [encodeImm, place_setWidth_5]

theorem encodeImm_r0_dst :
    encodeImm op l .r0 a imm =
      place op.bits 13 ||| place (1 : BitVec 1) 12 ||| place (BitVec.ofBool l) 11 ||| place a.bits 5 |||
        (imm &&& 0x001F) := by
  simp [encodeImm, place_setWidth_5]

end

end Sys2Proof
end

section
/-! The statements about the encoding (spec/30_encoding.md). -/

namespace Sys2Proof.Proofs

open Sys2Proof Sys2Proof.Machine Sys2Proof.Stated

/-- Settles O14, format by format. -/
theorem decodeEncodeRoundTrip : Obligations.DecodeEncodeRoundTrip := fun _ hi => decode_encode hi

/-- Settles O15: each format is the or of its fields, which decoding reads and encoding puts back. -/
theorem encodeDecodeGivesTheWord : Obligations.EncodeDecodeGivesTheWord := encode_decode

/-- Settles O16: words decode alike exactly when they are equal with the ignored bit written 0. -/
theorem onlyBranchBitTwelveIsIgnored : Obligations.OnlyBranchBitTwelveIsIgnored :=
  fun w w' => (decode_eq_iff w w').trans (canonicalWord_eq_iff w w')

/-- Settles O17: the decoder assembles its instruction from sign-extended fields, and every instruction completes. -/
theorem everyWordIsLegal : Obligations.EveryWordIsLegal := fun w =>
  ⟨decode w, by rw [decodeTableWord, tableWord_toNat], rfl, wellFormed_decode w, fun s => ⟨_, exec_eq_effect _ s⟩⟩

/-- Settles O18: a word matches the row of its own instruction and no second row. -/
theorem opcodeTableDividesTheWords : Obligations.OpcodeTableDividesTheWords := by
  intro w k row hk
  obtain ⟨own, hown, hmatch⟩ := word_matches_own_row w
  constructor
  · intro h
    exact row_unique hown hk hmatch h
  · rintro rfl
    rw [hk] at hown
    cases hown
    exact hmatch

/-- Settles O12, word by word. -/
theorem sampleWordsDecode : Obligations.SampleWordsDecode := by
  unfold Obligations.SampleWordsDecode
  decide

/-- Settles O13: sign extension keeps the signed value, and the extended word fits its field. -/
theorem fieldsAreSignExtended : Obligations.FieldsAreSignExtended :=
  ⟨fun f => ⟨sext5_eq_or f, BitVec.toInt_signExtend_of_le (by decide), (fitsImm5_iff _).mp (fitsImm5_sext5 f)⟩,
    fun f => ⟨sext8_eq_or f, BitVec.toInt_signExtend_of_le (by decide), (fitsOff8_iff _).mp (fitsOff8_sext8 f)⟩⟩

/-- Settles O19: the fields that a pseudo-instruction fixes add up to the bits of its word, the others stay. -/
theorem pseudoInstructionWords : Obligations.PseudoInstructionWords :=
  ⟨rfl, rfl, encodeReg_r0_srcB_none .or false, encodeImm_r0_srcA .add false, encodeReg_r0_srcB .or false,
    encodeReg_r0_srcB .or true, encodeReg_r0_dst_none .sub true, encodeImm_r0_dst .sub true,
    encodeReg_r0_dst_none .and true, encodeReg_r0_srcB_none .or false .r7⟩

end Sys2Proof.Proofs
end

section
/-! Rotation of a bit vector by one place, applied again and again: the ring of spec/40_shifter_operands.md R74, R80. -/

namespace Sys2Proof

open Function

variable {w : Nat}

theorem getLsbD_rotateRight_one (x : BitVec w) {i : Nat} (hi : i < w) :
    (x.rotateRight 1).getLsbD i = x.getLsbD ((i + 1) % w) := by
  rw [BitVec.getLsbD_rotateRight]
  rcases (show w = 1 ∨ i + 1 < w ∨ 1 < w ∧ i + 1 = w by omega) with rfl | h | ⟨h, hlast⟩
  · simp [Nat.lt_one_iff.mp hi]
  · simp [Nat.mod_eq_of_lt (show 1 < w by omega), show i < w - 1 by omega, Nat.mod_eq_of_lt h, Nat.add_comm]
  · simp [Nat.mod_eq_of_lt h, hlast, hi, show ¬ i < w - 1 by omega, show i - (w - 1) = 0 by omega]

theorem getLsbD_iterate_rotateRight_one (x : BitVec w) (k : Nat) {i : Nat} (hi : i < w) :
    ((BitVec.rotateRight · 1)^[k] x).getLsbD i = x.getLsbD ((i + k) % w) := by
  induction k generalizing x with
  | zero => rw [iterate_zero_apply, Nat.add_zero, Nat.mod_eq_of_lt hi]
  | succ k ih =>
    rw [iterate_succ_apply, ih, getLsbD_rotateRight_one x (Nat.mod_lt _ (by omega)), Nat.mod_add_mod, Nat.add_assoc]

/-- Rotating by one place as often as there are bits returns the vector. -/
theorem isPeriodicPt_rotateRight_one (x : BitVec w) : IsPeriodicPt (BitVec.rotateRight · 1) w x :=
  BitVec.eq_of_getLsbD_eq fun i hi => by
    rw [getLsbD_iterate_rotateRight_one x w hi, Nat.add_mod_right, Nat.mod_eq_of_lt hi]

/-- A vector that rotation leaves has its bit 0 everywhere. -/
theorem isFixedPt_rotateRight_one_iff (x : BitVec w) :
    IsFixedPt (BitVec.rotateRight · 1) x ↔ x = 0 ∨ x = BitVec.allOnes w := by
  constructor
  · intro h
    have hbit (i : Nat) (hi : i < w) : x.getLsbD i = x.getLsbD 0 := by
      have := getLsbD_iterate_rotateRight_one x i (i := 0) (by omega)
      rwa [(h.iterate i).eq, Nat.zero_add, Nat.mod_eq_of_lt hi, eq_comm] at this
    cases h0 : x.getLsbD 0 with
    | false => exact .inl (BitVec.eq_of_getLsbD_eq fun i hi => by simp [hbit i hi, h0])
    | true => exact .inr (BitVec.eq_of_getLsbD_eq fun i hi => by simp [hbit i hi, h0, hi])
  · rintro (rfl | rfl)
    · exact BitVec.eq_of_getLsbD_eq fun i hi => by simp
    · exact BitVec.eq_of_getLsbD_eq fun i hi => by simp [hi]

/-- A number of rotations with no factor in common with the width returns only a vector that each of them leaves. -/
theorem isPeriodicPt_rotateRight_one_iff {k : Nat} (hk : Nat.Coprime w k) (x : BitVec w) :
    IsPeriodicPt (BitVec.rotateRight · 1) k x ↔ x = 0 ∨ x = BitVec.allOnes w := by
  rw [← isFixedPt_rotateRight_one_iff]
  constructor
  · intro h
    have hgcd := (isPeriodicPt_rotateRight_one x).gcd h
    rwa [hk.gcd_eq_one] at hgcd
  · exact fun h => h.isPeriodicPt k

end Sys2Proof
end

section
/-! The shifter (spec/40_shifter_operands.md R73 to R75): each shift code is a known operation on bit vectors, of which
the statements' readings by bits and by numbers follow. -/

namespace Sys2Proof.Machine

open Sys2Proof

theorem getLsbD_ofBool_append_shifted (b : Bool) (v : Word) (i : Nat) :
    (BitVec.ofBool b ++ v.extractLsb' 1 15).getLsbD i = if i = 15 then b else v.getLsbD (i + 1) := by
  rw [BitVec.getLsbD_append, BitVec.getLsbD_ofBool, BitVec.getLsbD_extractLsb', Nat.add_comm 1 i]
  rcases Nat.lt_trichotomy i 15 with h | rfl | h
  · simp [h, h.ne]
  · simp
  · simp [h.ne', h.not_gt, show i - 15 ≠ 0 by omega, BitVec.getLsbD_of_ge v (i + 1) (by omega)]

/-- Every shift code but NONE moves each bit one place right. -/
theorem shiftOut_getLsbD_of_lt {sh : ShiftCode} (hsh : sh ≠ .none) (v : Word) (c : Bool) {i : Nat} (hi : i < 15) :
    (shiftOut v sh c).getLsbD i = v.getLsbD (i + 1) := by
  cases sh with
  | none => exact absurd rfl hsh
  | asr | ror | rrc => exact (getLsbD_ofBool_append_shifted _ v i).trans (if_neg hi.ne)

/-- The bit shifted out is the remainder of the division by 2. -/
theorem shiftCarry_toNat {sh : ShiftCode} (hsh : sh ≠ .none) (v : Word) : (shiftCarry v sh).toNat = v.toNat % 2 := by
  rw [shiftCarry_eq, if_neg hsh, BitVec.getLsbD, Nat.testBit_zero]
  rcases Nat.mod_two_eq_zero_or_one v.toNat with h | h <;> simp [h]

/-- ASR is the arithmetic shift. -/
theorem shiftOut_asr (v : Word) (c : Bool) : shiftOut v .asr c = v.sshiftRight 1 :=
  BitVec.eq_of_getLsbD_eq fun i hi => by
    rw [shiftOut, getLsbD_ofBool_append_shifted, BitVec.getLsbD_sshiftRight, BitVec.msb_eq_getLsbD_last]
    rcases (show i < 15 ∨ i = 15 by omega) with h | rfl
    · simp [h.ne, hi.not_ge, Nat.add_comm 1 i, show i + 1 < 16 by omega]
    · simp

/-- ROR is the rotation by one place. -/
theorem shiftOut_ror (v : Word) (c : Bool) : shiftOut v .ror c = v.rotateRight 1 :=
  BitVec.eq_of_getLsbD_eq fun i hi => by
    rw [shiftOut, getLsbD_ofBool_append_shifted, getLsbD_rotateRight_one v hi]
    rcases (show i < 15 ∨ i = 15 by omega) with h | rfl
    · rw [if_neg h.ne, Nat.mod_eq_of_lt (by omega)]
    · simp

/-- RRC puts its carry above the shifted word. -/
theorem shiftOut_rrc_toNat (v : Word) (c : Bool) :
    (shiftOut v .rrc c).toNat = (c.toNat * 65536 + v.toNat) / 2 := by
  have hv := v.isLt
  change (BitVec.cons c (v.extractLsb' 1 15)).toNat = _
  rw [BitVec.toNat_cons', BitVec.extractLsb'_toNat, Nat.shiftLeft_eq, Nat.shiftRight_eq_div_pow]
  omega

/-! ### SC -/

@[simp] theorem Effect.apply_sc (e : Effect) (s : State) : (e.apply s).sc = s.sc := by
  cases e with
  | arith ldcc dst r invert => exact finishArith_sc ldcc dst r invert s
  | logic ldcc dst res carry => exact finishLogic_sc ldcc dst res carry s
  | load ea dst => exact loadFrom_sc ea dst s
  | store ea dst => exact storeTo_sc ea dst s
  | branch cond off => exact branchIf_sc cond off s

/-- No effect writes SC, so an instruction leaves the SC that its shifter left. -/
theorem exec_sc (i : Instr) (s : State) : ∃ t, exec i s = .next t ∧ t.sc = (afterShifter i s).sc :=
  ⟨_, exec_eq_effect i s, Effect.apply_sc _ _⟩

theorem afterShifter_of_some {i : Instr} {a : Reg} {sh : ShiftCode} (h : Stated.shifted i = some (a, sh)) (s : State) :
    afterShifter i s = runShifter a sh s := by
  rw [afterShifter, h]

theorem afterShifter_of_none {i : Instr} (h : Stated.shifted i = none) (s : State) : afterShifter i s = s := by
  rw [afterShifter, h]

end Sys2Proof.Machine
end

section
/-! The ring of a register and the carry that `ORS Rd, Rd RRC, R0` turns (spec/40_shifter_operands.md R80). -/

namespace Sys2Proof.Machine

open Sys2Proof Sys2Proof.Stated Function

/-- The register with the carry flag "at position 16" (R75). -/
def carryRing (rd : Reg) (s : State) : BitVec 17 := BitVec.cons s.flags.c (s.readReg rd)

theorem rrcOnce_eq (rd : Reg) (s : State) : rrcOnce rd s =
    finishLogic true rd (operandAReg rd .rrc s ||| operandBReg .r0 s) (shifterCarryReg rd .rrc s)
      (runShifter rd .rrc s) := rfl

theorem rrcOnce_readReg {rd : Reg} (hrd : rd ≠ .r0) (s : State) :
    (rrcOnce rd s).readReg rd = shiftOut (s.readReg rd) .rrc s.flags.c := by
  rw [rrcOnce_eq, finishLogic_readReg_dst, if_neg hrd]
  exact BitVec.or_zero

theorem rrcOnce_carry (rd : Reg) (s : State) : (rrcOnce rd s).flags.c = (s.readReg rd).getLsbD 0 := by
  rw [rrcOnce_eq, finishLogic_flags]
  rfl

/-- RRC with the carry passed on is a rotation of the ring by one place. -/
theorem semiconj_carryRing_rrcOnce {rd : Reg} (hrd : rd ≠ .r0) :
    Semiconj (carryRing rd) (rrcOnce rd) (BitVec.rotateRight · 1) := fun s => by
  refine BitVec.eq_of_getLsbD_eq fun i hi => ?_
  rw [getLsbD_rotateRight_one _ hi]
  simp only [carryRing, rrcOnce_readReg hrd, rrcOnce_carry, BitVec.getLsbD_cons, shiftOut,
    getLsbD_ofBool_append_shifted]
  rcases (show i < 15 ∨ i = 15 ∨ i = 16 by omega) with h | rfl | rfl
  · simp [Nat.mod_eq_of_lt (show i + 1 < 17 by omega), h.ne, show i ≠ 16 by omega]
  · simp
  · simp

/-- The ring determines the register and the carry. -/
theorem carryRing_eq_cons_iff (rd : Reg) (s : State) (c : Bool) (v : Word) :
    carryRing rd s = BitVec.cons c v ↔ s.readReg rd = v ∧ s.flags.c = c := by
  constructor
  · intro h
    exact ⟨by simpa [carryRing] using congrArg (BitVec.setWidth 16) h,
      by simpa [carryRing] using congrArg BitVec.msb h⟩
  · rintro ⟨rfl, rfl⟩
    rfl

end Sys2Proof.Machine
end

section
/-! The statements about the shifter (spec/40_shifter_operands.md). -/

namespace Sys2Proof.Proofs

open Sys2Proof Sys2Proof.Machine Sys2Proof.Stated Function

/-- Settles O21: ASR is the arithmetic shift, whose signed value is the floor of the half. -/
theorem asrHalvesTheSignedValue : Obligations.AsrHalvesTheSignedValue := by
  intro v c
  refine ⟨getLsbD_ofBool_append_shifted _ v 15, fun i hi => shiftOut_getLsbD_of_lt (by decide) v c hi, rfl, ?_, ?_⟩
  · rw [shiftOut_asr, BitVec.toInt_sshiftRight, Int.shiftRight_eq_div_pow]
    rfl
  · rw [shiftCarry_toNat (by decide), BitVec.toInt_eq_toNat_cond]
    split <;> omega

/-- Settles O22: ROR is the rotation by one place, which sixteen applications undo. -/
theorem rorRotatesByOne : Obligations.RorRotatesByOne := by
  intro v c
  have htop : (shiftOut v .ror c).getLsbD 15 = v.getLsbD 0 := getLsbD_ofBool_append_shifted _ v 15
  refine ⟨htop, fun i hi => shiftOut_getLsbD_of_lt (by decide) v c hi, rfl, htop.symm, ?_⟩
  simp only [shiftOut_ror]
  exact isPeriodicPt_rotateRight_one v

/-- Settles O23: the output on numbers, and the operand read and the shifter run of an instruction. -/
theorem rrcShiftsCarryAndValue : Obligations.RrcShiftsCarryAndValue := by
  refine ⟨fun v c => ⟨shiftOut_rrc_toNat v c, ?_⟩, fun a s b => ⟨rfl, ?_, rfl, rfl⟩⟩
  · rw [shiftCarry_toNat (by decide)]
    omega
  · simp [operandAReg]

/-- Settles O24: the ring of 17 bits turns one place at a time, and 17 is prime, so fewer turns return only a ring whose
bits are all equal. -/
theorem rrcHasPeriodSeventeen : Obligations.RrcHasPeriodSeventeen := by
  intro rd s
  refine ⟨fun hrd => ?_, State.readReg_r0 _, (rrcOnce_carry .r0 s).trans BitVec.getLsbD_zero⟩
  have hring (k : Nat) : carryRing rd ((rrcOnce rd)^[k] s) = (BitVec.rotateRight · 1)^[k] (carryRing rd s) :=
    (semiconj_carryRing_rrcOnce hrd).iterate_right k s
  have hback (k : Nat) : ((rrcOnce rd)^[k] s).readReg rd = s.readReg rd ∧ ((rrcOnce rd)^[k] s).flags.c = s.flags.c ↔
      IsPeriodicPt (BitVec.rotateRight · 1) k (carryRing rd s) := by
    rw [← carryRing_eq_cons_iff, hring]
    exact Iff.rfl
  obtain ⟨hreg, hcarry⟩ := (hback 17).mpr (isPeriodicPt_rotateRight_one _)
  refine ⟨hreg, hcarry, fun k hpos hlt => ?_⟩
  have hcoprime : Nat.Coprime 17 k := Nat.coprime_of_lt_prime hpos.ne' hlt (by norm_num)
  have hzero : (0 : BitVec 17) = BitVec.cons false 0x0000 := rfl
  have hones : BitVec.allOnes 17 = BitVec.cons true 0xFFFF := rfl
  rw [hback, isPeriodicPt_rotateRight_one_iff hcoprime, hzero, hones, carryRing_eq_cons_iff, carryRing_eq_cons_iff]

/-- Settles O25: the shifter writes the bit it shifts out, and nothing after it writes SC. -/
theorem typeOneAlwaysWritesSc : Obligations.TypeOneAlwaysWritesSc := by
  intro i s a sh hsh
  obtain ⟨t, ht, hsc⟩ := exec_sc i s
  refine ⟨t, ht, ?_⟩
  rw [hsc, afterShifter_of_some hsh, runShifter_sc, shiftCarry_eq]

/-- Settles O26: without a shifter nothing writes SC. -/
theorem otherFormsLeaveSc : Obligations.OtherFormsLeaveSc := by
  intro i s hi
  obtain ⟨t, ht, hsc⟩ := exec_sc i s
  exact ⟨t, ht, by rw [hsc, afterShifter_of_none hi]⟩

/-- Settles O20, from the definitions of the shifter's two outputs. -/
theorem shiftNoneClearsScOnly : Obligations.ShiftNoneClearsScOnly :=
  fun _ _ => ⟨rfl, rfl, fun _ _ => rfl⟩

end Sys2Proof.Proofs
end

section
/-! The adder (spec/41_arithmetic.md R85): its outputs on numbers, and what they are when operand B and the carry-in
are complemented, which makes it a subtraction with borrow (R88, R89). -/

namespace Sys2Proof.Machine

open Sys2Proof Sys2Proof.Stated

/-! ### The sign bit -/

theorem getLsbD_fifteen_eq_toNat (x : Word) : x.getLsbD 15 = decide (32768 ≤ x.toNat) :=
  (BitVec.msb_eq_getLsbD_last x).symm.trans (BitVec.msb_eq_decide x)

theorem getLsbD_fifteen_eq_toInt (x : Word) : x.getLsbD 15 = decide (x.toInt < 0) :=
  (BitVec.msb_eq_getLsbD_last x).symm.trans BitVec.msb_eq_toInt

/-! ### The outputs on numbers -/

section
variable (a b : Word) (cin : Bool)

theorem adder_sum_toNat : (adder a b cin).sum.toNat = (a.toNat + b.toNat + cin.toNat) % 65536 :=
  BitVec.toNat_ofNat _ _

theorem adder_sum_eq_ofInt : (adder a b cin).sum = BitVec.ofInt 16 (a.toInt + b.toInt + cin.toNat) := by
  rw [BitVec.ofInt_add, BitVec.ofInt_add, BitVec.ofInt_toInt, BitVec.ofInt_toInt, BitVec.ofInt_natCast]
  apply BitVec.eq_of_toNat_eq
  rw [adder_sum_toNat, BitVec.toNat_add, BitVec.toNat_add, BitVec.toNat_ofNat, Nat.mod_add_mod, Nat.add_mod_mod]

theorem adder_carryOut_iff : (adder a b cin).carryOut = true ↔ 65536 ≤ a.toNat + b.toNat + cin.toNat :=
  decide_eq_true_iff

theorem adder_overflow_iff : (adder a b cin).overflow = true ↔
    a.getLsbD 15 = b.getLsbD 15 ∧ (adder a b cin).sum.getLsbD 15 ≠ a.getLsbD 15 := by
  change ((a ^^^ (adder a b cin).sum) &&& (b ^^^ (adder a b cin).sum)).getLsbD 15 = true ↔ _
  rw [BitVec.getLsbD_and, BitVec.getLsbD_xor, BitVec.getLsbD_xor]
  generalize a.getLsbD 15 = x, b.getLsbD 15 = y, (adder a b cin).sum.getLsbD 15 = z
  revert x y z
  decide

theorem adder_negative : (adder a b cin).negative = (adder a b cin).sum.getLsbD 15 := rfl

theorem adder_zero : (adder a b cin).zero = decide ((adder a b cin).sum.toNat = 0) :=
  decide_eq_decide.mpr BitVec.toNat_inj.symm

/-- The raw carry is set exactly when the sum has wrapped to below operand A plus the carry-in (R93). -/
theorem adder_carryOut_iff_sum_lt :
    (adder a b cin).carryOut = true ↔ (adder a b cin).sum.toNat < a.toNat + cin.toNat := by
  have ha := a.isLt
  have hb := b.isLt
  have hc := cin.toNat_le
  rw [adder_carryOut_iff, adder_sum_toNat]
  omega

/-- The sign rule of R85 says that the exact signed sum does not fit: the operands' sign bits agree, and the sum's
differs, in no other case. -/
theorem adder_overflow : (adder a b cin).overflow = outOfRange (a.toInt + b.toInt + cin.toNat) := by
  have ha := a.isLt
  have hb := b.isLt
  have hc := cin.toNat_le
  rw [Bool.eq_iff_iff, adder_overflow_iff, outOfRange, decide_eq_true_iff]
  simp only [getLsbD_fifteen_eq_toNat, ne_eq, decide_eq_decide, adder_sum_toNat, BitVec.toInt_eq_toNat_cond]
  split <;> split <;> omega

end

/-! ### Subtraction with borrow -/

theorem toNat_not_bool (b : Bool) : (!b).toNat = 1 - b.toNat := by cases b <;> rfl

theorem toInt_not_word (x : Word) : (~~~x).toInt = -x.toInt - 1 := by
  have hx := x.isLt
  rw [BitVec.toInt_eq_toNat_cond, BitVec.toInt_eq_toNat_cond, BitVec.toNat_not]
  split <;> split <;> omega

section
variable (a b : Word) (borrow : Bool)

/-- Complementing operand B and the carry-in negates them on signed numbers, the two ones cancelling. -/
theorem toInt_add_not : a.toInt + (~~~b).toInt + (!borrow).toNat = a.toInt - b.toInt - borrow.toNat := by
  have hc := borrow.toNat_le
  rw [toInt_not_word, toNat_not_bool]
  omega

theorem adder_not_sum : (adder a (~~~b) !borrow).sum = BitVec.ofInt 16 (a.toInt - b.toInt - borrow.toNat) := by
  rw [adder_sum_eq_ofInt, toInt_add_not]

theorem adder_not_overflow :
    (adder a (~~~b) !borrow).overflow = outOfRange (a.toInt - b.toInt - borrow.toNat) := by
  rw [adder_overflow, toInt_add_not]

/-- The raw carry is the complement of a borrow (R88). -/
theorem adder_not_carryOut :
    (!(adder a (~~~b) !borrow).carryOut) = decide (a.toNat < b.toNat + borrow.toNat) := by
  have hb := b.isLt
  have hc := borrow.toNat_le
  rw [Bool.eq_iff_iff, Bool.not_eq_true', ← Bool.not_eq_true, adder_carryOut_iff, decide_eq_true_iff,
    BitVec.toNat_not, toNat_not_bool]
  omega

end

end Sys2Proof.Machine
end

section
/-! The eight arithmetic instructions as one (spec/41_arithmetic.md R86 to R91): the adder runs on the inputs that the
rules name, then flags and destination are written; and what ADD, ADC, SUB and SBC leave, each as outputs of the
adder. -/

namespace Sys2Proof.Machine

open Sys2Proof Sys2Proof.Stated

/-! ### What an arithmetic instruction does -/

/-- An arithmetic instruction has a destination and completes, finishing with the adder's outputs. -/
theorem exec_of_adderInputs {i : Instr} {s : State} {a b : Word} {cin inv : Bool}
    (h : adderInputs i s = some (a, b, cin, inv)) : ∃ dst, destination i = some dst ∧
      exec i s = .next (finishArith (setsFlags i) dst (adder a b cin) inv (afterShifter i s)) := by
  cases i <;> cases h <;> exact ⟨_, rfl, rfl⟩

theorem writesOnly_finishArith (l : Bool) (dst : Reg) (r : AdderOut) (inv : Bool) (i : Instr) (s : State) :
    WritesOnly dst r.sum s (finishArith l dst r inv (afterShifter i s)) := by
  refine ⟨finishArith_readReg_dst .., fun q hq => ?_, State.memRead_congr _ _ (by simp)⟩
  rw [finishArith_readReg_of_ne _ _ _ _ _ q hq, afterShifter_readReg]

theorem adderFlags_adder (a b : Word) (cin inv : Bool) : adderFlags (adder a b cin) inv =
    { c := (adder a b cin).carryOut ^^ inv, v := (adder a b cin).overflow,
      z := decide ((adder a b cin).sum.toNat = 0), n := decide ((adder a b cin).sum.toInt < 0) } := by
  rw [adderFlags, adder_zero, adder_negative, getLsbD_fifteen_eq_toInt]

/-- What an arithmetic instruction leaves when its adder is given `a`, `b` and `cin`. -/
def ArithLeaves (ldcc : Bool) (dst : Reg) (a b : Word) (cin inv : Bool) (s t : State) : Prop :=
  WritesOnly dst (adder a b cin).sum s t ∧
    t.flags = arithFlags ldcc ((adder a b cin).carryOut ^^ inv) (adder a b cin).overflow (adder a b cin).sum s

theorem exec_arithLeaves {i : Instr} {s : State} {a b : Word} {cin inv : Bool} {dst : Reg}
    (hin : adderInputs i s = some (a, b, cin, inv)) (hdst : destination i = some dst) :
    ∃ t, exec i s = .next t ∧ ArithLeaves (setsFlags i) dst a b cin inv s t ∧ t.sc = (afterShifter i s).sc := by
  obtain ⟨d, hd, ht⟩ := exec_of_adderInputs hin
  obtain rfl : d = dst := Option.some.inj (hd.symm.trans hdst)
  refine ⟨_, ht, ⟨writesOnly_finishArith _ _ _ _ i s, ?_⟩, finishArith_sc ..⟩
  rw [finishArith_flags, adderFlags_adder, afterShifter_flags, arithFlags]
  cases setsFlags i <;> rfl

/-! ### ADD, ADC, SUB and SBC -/

section
variable (ldcc : Bool) (dst : Reg) (A B : Word) (s t : State)

theorem addLeaves_iff : AddLeaves ldcc dst A B s t ↔ ArithLeaves ldcc dst A B false false s t := by
  have hov := adder_overflow A B false
  rw [Bool.toNat_false, Int.natCast_zero, Int.add_zero] at hov
  rw [AddLeaves, ArithLeaves, Bool.xor_false, hov]
  rfl

theorem adcLeaves_iff : AdcLeaves ldcc dst A B s t ↔ ArithLeaves ldcc dst A B s.flags.c false s t := by
  rw [AdcLeaves, ArithLeaves, Bool.xor_false, adder_overflow]
  rfl

theorem sbcLeaves_iff : SbcLeaves ldcc dst A B s t ↔ ArithLeaves ldcc dst A (~~~B) (!s.flags.c) true s t := by
  rw [SbcLeaves, ArithLeaves, Bool.xor_true, adder_not_sum, adder_not_carryOut, adder_not_overflow]

theorem subLeaves_iff : SubLeaves ldcc dst A B s t ↔ ArithLeaves ldcc dst A (~~~B) true true s t := by
  rw [SubLeaves, ArithLeaves, Bool.xor_true, ← Bool.not_false, adder_not_sum, adder_not_carryOut, adder_not_overflow,
    Bool.toNat_false, Nat.add_zero, Int.natCast_zero, Int.sub_zero]

end

end Sys2Proof.Machine
end

section
/-! Subtraction read as comparison (spec/41_arithmetic.md R92) and chained over two words (R89). -/

namespace Sys2Proof.Machine

open Sys2Proof Sys2Proof.Stated

/-! ### Comparison -/

theorem ofInt_toInt_sub_toInt (A B : Word) : BitVec.ofInt 16 (A.toInt - B.toInt) = A - B := by
  rw [Int.sub_eq_add_neg, BitVec.ofInt_add, BitVec.ofInt_neg, BitVec.ofInt_toInt, BitVec.ofInt_toInt, sub_eq_add_neg]

/-- The sign of the wrapped difference, corrected by the overflow, is the sign of the exact one. -/
theorem toInt_ofInt_neg_xor_outOfRange {d : Int} (hlo : -65536 ≤ d) (hhi : d < 65536) :
    (decide ((BitVec.ofInt 16 d).toInt < 0) ^^ outOfRange d) = decide (d < 0) := by
  rw [BitVec.toInt_ofInt, outOfRange, Int.bmod_def]
  by_cases hd : d < -32768 ∨ 32767 < d
  · rw [decide_eq_true hd, Bool.xor_true, ← decide_not, decide_eq_decide]
    split <;> omega
  · rw [decide_eq_false hd, Bool.xor_false, decide_eq_decide]
    split <;> omega

/-- After SUB with ldcc set, C is the unsigned comparison, Z equality, and N XOR V the signed comparison. -/
theorem flags_of_subLeaves {dst : Reg} {A B : Word} {s t : State} (h : SubLeaves true dst A B s t) :
    t.flags.c = decide (A.toNat < B.toNat) ∧ t.flags.z = decide (A = B) ∧
      (t.flags.n ^^ t.flags.v) = decide (A.toInt < B.toInt) := by
  obtain ⟨-, hflags⟩ := h
  rw [hflags]
  refine ⟨rfl, decide_eq_decide.mpr ?_, ?_⟩
  · rw [ofInt_toInt_sub_toInt, ← sub_eq_zero (a := A), ← BitVec.toNat_inj]
    rfl
  · have := A.toInt_lt
    have := B.toInt_lt
    have := A.le_toInt
    have := B.le_toInt
    exact (toInt_ofInt_neg_xor_outOfRange (by omega) (by omega)).trans (decide_eq_decide.mpr sub_neg)

theorem lt_toNat_or_eq (A B : Word) :
    (decide (A.toNat < B.toNat) || decide (A = B)) = decide (A.toNat ≤ B.toNat) := by
  rw [← Bool.decide_or, decide_eq_decide, ← BitVec.toNat_inj, Nat.le_iff_lt_or_eq]

theorem lt_toInt_or_eq (A B : Word) :
    (decide (A.toInt < B.toInt) || decide (A = B)) = decide (A.toInt ≤ B.toInt) := by
  rw [← Bool.decide_or, decide_eq_decide, ← BitVec.toInt_inj, Int.le_iff_lt_or_eq]

/-! ### Two-word subtraction -/

theorem toInt_emod_word (x : Word) : x.toInt % 65536 = x.toNat := by
  have hx := x.isLt
  rw [BitVec.toInt_eq_toNat_cond]
  split <;> omega

theorem toNat_ofInt_word (x : Int) : ((BitVec.ofInt 16 x).toNat : Int) = x % 65536 := by
  rw [BitVec.toNat_ofInt]
  exact Int.toNat_of_nonneg (Int.emod_nonneg x (by decide))

/-- Borrowing from the high word whenever the low one is too small subtracts the two-word numbers. -/
theorem toNat_ofInt_two_words (AH AL BH BL : Word) :
    ((BitVec.ofInt 16 (AH.toInt - BH.toInt - (decide (AL.toNat < BL.toNat)).toNat)).toNat * 65536 +
        (BitVec.ofInt 16 (AL.toInt - BL.toInt)).toNat : Int) =
      ((AH.toNat * 65536 + AL.toNat : Int) - (BH.toNat * 65536 + BL.toNat)) % 4294967296 := by
  have hAH := toInt_emod_word AH
  have hAL := toInt_emod_word AL
  have hBH := toInt_emod_word BH
  have hBL := toInt_emod_word BL
  have := AL.isLt
  have := BL.isLt
  rw [toNat_ofInt_word, toNat_ofInt_word]
  by_cases hborrow : AL.toNat < BL.toNat
  · rw [decide_eq_true hborrow, Bool.toNat_true]
    omega
  · rw [decide_eq_false hborrow, Bool.toNat_false]
    omega

end Sys2Proof.Machine
end

section
/-! The statements about arithmetic (spec/41_arithmetic.md). -/

namespace Sys2Proof.Proofs

open Sys2Proof Sys2Proof.Machine Sys2Proof.Stated

/-- Settles O27: each output of the adder on numbers. -/
theorem adderOutputs : Obligations.AdderOutputs := by
  intro a b cin
  refine ⟨adder_sum_toNat a b cin, adder_carryOut_iff a b cin, adder_overflow_iff a b cin, ?_, ?_⟩
  · rw [adder_negative, getLsbD_fifteen_eq_toNat, decide_eq_true_iff]
  · rw [adder_zero, decide_eq_true_iff]

/-- Settles O28: the carry by the wrapped sum, the overflow by the exact signed sum. -/
theorem carryAndOverflowMeaning : Obligations.CarryAndOverflowMeaning :=
  fun a b cin => ⟨adder_carryOut_iff_sum_lt a b cin, adder_overflow a b cin⟩

/-- Settles O29: all eight instructions end in one way (`exec_of_adderInputs`), where ldcc reaches the flags alone. -/
theorem ldccGatesFlagsNeverTheResult : Obligations.LdccGatesFlagsNeverTheResult := by
  intro i s a b cin inv hin
  obtain ⟨d, hd, ht⟩ := exec_of_adderInputs hin
  obtain ⟨hreg, hother, -⟩ := writesOnly_finishArith (setsFlags i) d (adder a b cin) inv i s
  refine ⟨_, ht, fun hset => ?_, fun hclear => ?_, fun dst hdst => ?_⟩
  · rw [finishArith_flags, hset]
    exact ⟨rfl, rfl, rfl, rfl⟩
  · rw [finishArith_flags, hclear]
    exact afterShifter_flags i s
  · obtain rfl : d = dst := Option.some.inj (hd.symm.trans hdst)
    refine ⟨hreg, fun h7 => ?_, fun h7 => hother .r7 h7.symm⟩
    subst h7
    exact hreg

/-- Settles O30: ADD gives the adder its operands and the carry-in 0. -/
theorem addResultFlagsFrame : Obligations.AddResultFlagsFrame := by
  intro ldcc dst srcA s
  simp only [addLeaves_iff]
  exact ⟨fun _ _ => exec_arithLeaves rfl rfl, fun _ => exec_arithLeaves rfl rfl⟩

/-- Settles O31: ADC gives the adder its operands and the old C. -/
theorem adcResultFlagsFrame : Obligations.AdcResultFlagsFrame := by
  intro ldcc dst srcA s
  simp only [adcLeaves_iff]
  exact ⟨fun _ _ => exec_arithLeaves rfl rfl, fun _ => exec_arithLeaves rfl rfl⟩

/-- Settles O32: SUB gives the adder the complement of operand B and the carry-in 1, a borrow of 0. -/
theorem subResultFlagsFrame : Obligations.SubResultFlagsFrame := by
  intro ldcc dst srcA s
  simp only [subLeaves_iff]
  exact ⟨fun _ _ => exec_arithLeaves rfl rfl, fun _ => exec_arithLeaves rfl rfl⟩

/-- Settles O33: SBC gives the adder the complements of operand B and of the old C, which is its borrow (D7). -/
theorem sbcResultFlagsFrame : Obligations.SbcResultFlagsFrame := by
  intro ldcc dst srcA s
  simp only [sbcLeaves_iff]
  exact ⟨fun _ _ => exec_arithLeaves rfl rfl, fun _ => exec_arithLeaves rfl rfl⟩

/-- Settles O34: SBCS subtracts the borrow that SUBS left in C, and changes no operand or result of the low words. -/
theorem twoWordSubtraction : Obligations.TwoWordSubtraction := by
  intro dl al bl dh ah bh s t u hdl hdh hne hah hbh ht hu
  obtain ⟨t', ht', ⟨⟨hlow, hkeep, -⟩, hflags⟩, -⟩ := (subResultFlagsFrame true dl al s).1 bl .none
  obtain rfl : t' = t := Host.Outcome.next.inj (ht'.symm.trans ht)
  obtain ⟨u', hu', ⟨⟨hhigh, hkeep', -⟩, -⟩, -⟩ := (sbcResultFlagsFrame true dh ah t').1 bh .none
  obtain rfl : u' = u := Host.Outcome.next.inj (hu'.symm.trans hu)
  have hborrow : t'.flags.c = decide ((s.readReg al).toNat < (s.readReg bl).toNat) := congrArg Flags.c hflags
  have hA : operandAReg ah .none t' = s.readReg ah := hkeep ah hah
  rw [hhigh, if_neg hdh, hA, hkeep bh hbh, hborrow, hkeep' dl hne.symm, hlow, if_neg hdl]
  exact toNat_ofInt_two_words ..

/-- Settles O46: each condition is read off the three comparisons that the flags hold (`flags_of_subLeaves`). -/
theorem conditionsCompareAfterSubs : Obligations.ConditionsCompareAfterSubs := by
  intro ra rb s
  obtain ⟨t, ht, (hsub : SubLeaves true .r0 (s.readReg ra) (s.readReg rb) s t), -⟩ :=
    (subResultFlagsFrame true .r0 ra s).1 rb .none
  obtain ⟨hc, hz, hnv⟩ := flags_of_subLeaves hsub
  refine ⟨t, ht, ?_⟩
  simp only [taken, hc, hz, hnv, lt_toNat_or_eq, lt_toInt_or_eq]
  simp

end Sys2Proof.Proofs
end

section
/-! The four logic instructions as one (spec/42_logic.md R100 to R103): flags and destination are written from the
bitwise result, the carry being the SC just written for a type-1 instruction and 0 for a type-2 one. -/

namespace Sys2Proof.Machine

open Sys2Proof Sys2Proof.Stated

theorem logicFlags_eq (res : Word) (carry : Bool) : logicFlags res carry =
    { c := carry, v := false, z := decide (res.toNat = 0), n := decide (res.toInt < 0) } := by
  have hzero : (res == 0) = decide (res.toNat = 0) := decide_eq_decide.mpr BitVec.toNat_inj.symm
  rw [logicFlags, hzero, getLsbD_fifteen_eq_toInt]

theorem writesOnly_finishLogic (l : Bool) (dst : Reg) (res : Word) (carry : Bool) (i : Instr) (s : State) :
    WritesOnly dst res s (finishLogic l dst res carry (afterShifter i s)) := by
  refine ⟨finishLogic_readReg_dst .., fun q hq => ?_, State.memRead_congr _ _ (by simp)⟩
  rw [finishLogic_readReg_of_ne _ _ _ _ _ q hq, afterShifter_readReg]

/-- An instruction with a logic effect writes its destination whatever ldcc is, and the flags R102 names under it. -/
theorem exec_of_effect_logic {i : Instr} {s : State} {l : Bool} {dst : Reg} {res : Word} {carry : Bool}
    (heffect : effect i s = .logic l dst res carry) :
    ∃ t, exec i s = .next t ∧ WritesOnly dst res s t ∧ t.sc = (afterShifter i s).sc ∧
      t.flags = bitwiseFlags l carry res s := by
  refine ⟨finishLogic l dst res carry (afterShifter i s), ?_, writesOnly_finishLogic .., finishLogic_sc .., ?_⟩
  · rw [exec_eq_effect, heffect]
    rfl
  · rw [finishLogic_flags, logicFlags_eq, afterShifter_flags, bitwiseFlags]
    cases l <;> rfl

/-- In a type-1 form, the carry that the flags get is the SC that the instruction leaves. -/
theorem exec_of_effect_logic_shifted {i : Instr} {s : State} {l : Bool} {dst a : Reg} {res : Word} {sh : ShiftCode}
    (heffect : effect i s = .logic l dst res (shifterCarryReg a sh s)) (hsh : shifted i = some (a, sh)) :
    ∃ t, exec i s = .next t ∧ WritesOnly dst res s t ∧
      t.sc = (if sh = .none then false else (s.readReg a).getLsbD 0) ∧ t.flags = bitwiseFlags l t.sc res s := by
  obtain ⟨t, ht, hwrites, hsc, hflags⟩ := exec_of_effect_logic heffect
  have hcarry : t.sc = shifterCarryReg a sh s := by rw [hsc, afterShifter_of_some hsh]; rfl
  exact ⟨t, ht, hwrites, hcarry.trans (shiftCarry_eq ..), by rw [hflags, hcarry]⟩

/-- The effect of a type-2 form holds the carry 0, which is then the one that the flags get. -/
theorem exec_of_effect_logic_carry_false {i : Instr} {s : State} {l : Bool} {dst : Reg} {res : Word}
    (heffect : effect i s = .logic l dst res false) :
    ∃ t, exec i s = .next t ∧ WritesOnly dst res s t ∧ t.flags = bitwiseFlags l false res s := by
  obtain ⟨t, ht, hwrites, -, hflags⟩ := exec_of_effect_logic heffect
  exact ⟨t, ht, hwrites, hflags⟩

end Sys2Proof.Machine
end

section
/-! The statement about logic (spec/42_logic.md). -/

namespace Sys2Proof.Proofs

open Sys2Proof Sys2Proof.Machine Sys2Proof.Stated

/-- Settles O35: both forms of AND and OR have a logic effect, with the shifter's carry or 0; and another SC at the
start of an instruction gives the same state but for SC (`exec_setSc`). -/
theorem logicFlagsAndDestination : Obligations.LogicFlagsAndDestination := by
  refine ⟨fun ldcc dst srcA s => ⟨fun srcB sh => ⟨?and, ?or⟩, fun imm => ⟨?andImm, ?orImm⟩⟩, fun i s b => ?sc⟩
  case and => exact exec_of_effect_logic_shifted rfl rfl
  case or => exact exec_of_effect_logic_shifted rfl rfl
  case andImm => exact exec_of_effect_logic_carry_false rfl
  case orImm => exact exec_of_effect_logic_carry_false rfl
  case sc =>
    obtain ⟨t, c, hs, hb⟩ := exec_setSc i b s
    exact ⟨t, t.setSc c, hs, hb, State.setSc_self t⟩

end Sys2Proof.Proofs
end

section
/-! Load and store as two effects (spec/43_load_store.md R110 to R113): what each leaves and keeps, whichever form the
instruction has, and the effective address on numbers. -/

namespace Sys2Proof.Machine

open Sys2Proof Sys2Proof.Stated

/-! ### The effective address -/

/-- An unsigned base and a signed displacement. -/
theorem toNat_add_eq_emod (x y : Word) : ((x + y).toNat : Int) = (x.toNat + y.toInt) % 65536 := by
  have hy := toInt_emod_word y
  rw [BitVec.toNat_add]
  omega

theorem effectiveAddressImm_toNat (srcA : Reg) (imm5 : BitVec 5) (s : State) :
    ((effectiveAddressImm srcA (sext5 imm5) s).toNat : Int) = ((s.readReg srcA).toNat + imm5.toInt) % 65536 := by
  have hdisp : (sext5 imm5).toInt = imm5.toInt := BitVec.toInt_signExtend_of_le (by decide)
  rw [← hdisp]
  exact toNat_add_eq_emod ..

/-! ### What a load and a store leave -/

@[simp] theorem afterShifter_memRead (i : Instr) (s : State) (a : Word) :
    (afterShifter i s).memRead a = s.memRead a := State.memRead_congr _ _ (afterShifter_mem i s) a

section
variable {i : Instr} {s : State} {ea : Word} {dst : Reg}

theorem exec_of_effect_load (heffect : effect i s = .load ea dst) :
    ∃ t, exec i s = .next t ∧ WritesOnly dst (s.memRead ea) s t ∧ t.flags = s.flags ∧
      t.sc = (afterShifter i s).sc := by
  refine ⟨loadFrom ea dst (afterShifter i s), ?_, ⟨?_, fun q hq => ?_, fun a => ?_⟩, ?_, loadFrom_sc ..⟩
  · rw [exec_eq_effect, heffect]
    rfl
  · rw [loadFrom_readReg_dst, afterShifter_memRead]
  · rw [loadFrom_readReg_of_ne _ _ _ _ hq, afterShifter_readReg]
  · rw [loadFrom_memRead, afterShifter_memRead]
  · rw [loadFrom_flags, afterShifter_flags]

theorem exec_of_effect_store (heffect : effect i s = .store ea dst) :
    ∃ t, exec i s = .next t ∧ StoresOnly ea (s.readReg dst) s t ∧ t.sc = (afterShifter i s).sc := by
  have hmem (a : Word) :
      (storeTo ea dst (afterShifter i s)).memRead a = if ea = a then s.readReg dst else s.memRead a := by
    rw [storeTo_memRead, afterShifter_readReg, afterShifter_memRead]
  refine ⟨storeTo ea dst (afterShifter i s), ?_, ⟨?_, fun a ha => ?_, fun q => ?_, ?_⟩, storeTo_sc ..⟩
  · rw [exec_eq_effect, heffect]
    rfl
  · rw [hmem, if_pos rfl]
  · rw [hmem, if_neg ha.symm]
  · rw [storeTo_readReg, afterShifter_readReg]
  · rw [storeTo_flags, afterShifter_flags]

/-- The registers and flags that a load keeps. -/
theorem exec_load_keeps (heffect : effect i s = .load ea dst) :
    ∃ t, exec i s = .next t ∧ t.flags = s.flags ∧ ∀ q, q ≠ dst → t.readReg q = s.readReg q := by
  obtain ⟨t, ht, ⟨-, hother, -⟩, hflags, -⟩ := exec_of_effect_load heffect
  exact ⟨t, ht, hflags, hother⟩

/-- A store keeps every register and flag. -/
theorem exec_store_keeps (heffect : effect i s = .store ea dst) :
    ∃ t, exec i s = .next t ∧ t.flags = s.flags ∧ ∀ q, t.readReg q = s.readReg q := by
  obtain ⟨t, ht, ⟨-, -, hreg, hflags⟩, -⟩ := exec_of_effect_store heffect
  exact ⟨t, ht, hflags, hreg⟩

end

theorem Effect.setsFlags_eq_false {e : Effect} (h : (e.isLoad || e.isStore) = true) : e.setsFlags = false := by
  cases e with
  | load | store => rfl
  | arith | logic | branch => cases h

end Sys2Proof.Machine
end

section
/-! The statements about load and store (spec/43_load_store.md). -/

namespace Sys2Proof.Proofs

open Sys2Proof Sys2Proof.Machine Sys2Proof.Stated

/-- Settles O36: the addition of the two modes on numbers, and the frames of a load and of a store. -/
theorem effectiveAddressWraps : Obligations.EffectiveAddressWraps := fun _ srcA s =>
  ⟨fun _ _ => ⟨BitVec.toNat_add .., exec_load_keeps rfl, exec_store_keeps rfl⟩,
    fun imm5 => ⟨effectiveAddressImm_toNat srcA imm5 s, exec_load_keeps rfl, exec_store_keeps rfl⟩⟩

/-- Settles O37: both forms of LD have a load effect, at the address of their addressing mode. -/
theorem loadResultAndFrame : Obligations.LoadResultAndFrame :=
  fun _ _ _ => ⟨fun _ _ => exec_of_effect_load rfl, fun _ => exec_of_effect_load rfl⟩

/-- Settles O38: both forms of ST have a store effect, at the address of their addressing mode. -/
theorem storeResultAndFrame : Obligations.StoreResultAndFrame :=
  fun _ _ _ => ⟨fun _ _ => exec_of_effect_store rfl, fun _ => exec_of_effect_store rfl⟩

/-- Settles O39: neither a load nor a store is an effect that writes flags, and SC is the shifter's, where one runs. -/
theorem loadStoreLeavesFlags : Obligations.LoadStoreLeavesFlags := by
  intro i s hi
  rw [← effect_isLoad i s, ← effect_isStore i s] at hi
  refine ⟨_, exec_eq_effect i s, ?_, ?_, fun _ _ => rfl⟩
  · rw [Effect.apply_flags (Effect.setsFlags_eq_false hi), afterShifter_flags]
  · rw [Effect.apply_sc]
    cases hsh : shifted i with
    | some p => rw [afterShifter_of_some hsh, runShifter_sc, shiftCarry_eq]
    | none => rw [afterShifter_of_none hsh]

end Sys2Proof.Proofs
end

section
/-! The pairing of the conditions by number (spec/44_branch.md R137): the two of a pair are each other's negation, and
the numbers of a pair differ in bit 0. -/

namespace Sys2Proof

open Sys2Proof.Machine

/-- The condition that holds when `cond` does not. -/
def Cond.complement : Cond → Cond
  | .al => .nv
  | .nv => .al
  | .hi => .ls
  | .ls => .hi
  | .cc => .cs
  | .cs => .cc
  | .ne => .eq
  | .eq => .ne
  | .vc => .vs
  | .vs => .vc
  | .pl => .mi
  | .mi => .pl
  | .ge => .lt
  | .lt => .ge
  | .gt => .le
  | .le => .gt

/-- The evaluator reads each even condition but AL as the negation of the odd one above it. -/
theorem taken_complement (cond : Cond) (f : Flags) : taken cond.complement f = !taken cond f := by
  cases cond with
  | al | nv | ls | cs | eq | vs | mi | lt | le => rfl
  | hi | cc | ne | vc | pl | ge | gt => exact (Bool.not_not _).symm

theorem Cond.ofBits_append_one :
    ∀ k : BitVec 3, Cond.ofBits (k ++ (1 : BitVec 1)) = (Cond.ofBits (k ++ (0 : BitVec 1))).complement := by
  decide

end Sys2Proof
end

section
/-! When each condition holds, and the branch as one operation for all sixteen (spec/44_branch.md R120 to R136). -/

namespace Sys2Proof.Machine

open Sys2Proof Sys2Proof.Stated

/-! ### The conditions on the flags -/

section
variable (f : Flags)

@[simp] theorem taken_al : taken .al f = true := rfl
@[simp] theorem taken_nv : taken .nv f = false := rfl
@[simp] theorem taken_hi_iff : taken .hi f = true ↔ f.c = false ∧ f.z = false := by simp [taken]
@[simp] theorem taken_ls_iff : taken .ls f = true ↔ f.c = true ∨ f.z = true := Bool.or_eq_true_iff
@[simp] theorem taken_cc_iff : taken .cc f = true ↔ f.c = false := (Bool.not_eq_true' f.c).to_iff
@[simp] theorem taken_cs_iff : taken .cs f = true ↔ f.c = true := Iff.rfl
@[simp] theorem taken_ne_iff : taken .ne f = true ↔ f.z = false := (Bool.not_eq_true' f.z).to_iff
@[simp] theorem taken_eq_iff : taken .eq f = true ↔ f.z = true := Iff.rfl
@[simp] theorem taken_vc_iff : taken .vc f = true ↔ f.v = false := (Bool.not_eq_true' f.v).to_iff
@[simp] theorem taken_vs_iff : taken .vs f = true ↔ f.v = true := Iff.rfl
@[simp] theorem taken_pl_iff : taken .pl f = true ↔ f.n = false := (Bool.not_eq_true' f.n).to_iff
@[simp] theorem taken_mi_iff : taken .mi f = true ↔ f.n = true := Iff.rfl
@[simp] theorem taken_ge_iff : taken .ge f = true ↔ f.n = f.v := by simp [taken]
@[simp] theorem taken_lt_iff : taken .lt f = true ↔ f.n ≠ f.v := bne_iff_ne
@[simp] theorem taken_gt_iff : taken .gt f = true ↔ f.n = f.v ∧ f.z = false := by simp [taken]
@[simp] theorem taken_le_iff : taken .le f = true ↔ f.n ≠ f.v ∨ f.z = true := by simp [taken]

end

/-! ### The branch -/

section
variable {i : Instr} {cond : Cond} {off : Word} {s : State}

theorem exec_of_branchOf (hi : branchOf i = some (cond, off)) : exec i s = .next (branchIf cond off s) := by
  cases i with
  | bal | bnv | bhi | bls | bcc | bcs | bne | beq | bvc | bvs | bpl | bmi | bge | blt | bgt | ble => cases hi; rfl
  | _ => cases hi

theorem exec_of_taken (hi : branchOf i = some (cond, off)) (ht : taken cond s.flags = true) :
    exec i s = .next { s with pc := s.pc + off } := by
  rw [exec_of_branchOf hi, branchIf_eq, ht]
  rfl

theorem exec_of_not_taken (hi : branchOf i = some (cond, off)) (ht : taken cond s.flags = false) :
    exec i s = .next s := by
  rw [exec_of_branchOf hi, branchIf_eq, ht]
  rfl

/-- Both outcomes of a branch whose condition reads `p` on the flags. -/
theorem exec_of_taken_iff {p : Prop} [Decidable p] (hi : branchOf i = some (cond, off))
    (ht : taken cond s.flags = true ↔ p) : exec i s = .next (if p then { s with pc := s.pc + off } else s) := by
  by_cases hp : p
  · rw [if_pos hp, exec_of_taken hi (ht.mpr hp)]
  · rw [if_neg hp, exec_of_not_taken hi (Bool.eq_false_iff.mpr (mt ht.mp hp))]

end

theorem State.advancePc_pc_toNat (s : State) : s.advancePc.pc.toNat = (s.pc.toNat + 1) % 65536 := by
  rw [State.advancePc_pc, BitVec.toNat_add]
  rfl

end Sys2Proof.Machine
end

section
/-! The statements about the branches (spec/44_branch.md). -/

namespace Sys2Proof.Proofs

open Sys2Proof Sys2Proof.Machine Sys2Proof.Stated

/-- Settles O45: taken or not, the branch starts from the pc that the step has incremented. -/
theorem branchTarget : Obligations.BranchTarget := by
  intro s cond off hi
  have hpc := s.advancePc_pc_toNat
  cases ht : taken cond s.flags with
  | true =>
    refine ⟨_, exec_of_taken (s := s.advancePc) hi ht, ?_, rfl⟩
    rw [if_pos rfl, toNat_add_eq_emod]
    omega
  | false =>
    refine ⟨_, exec_of_not_taken (s := s.advancePc) hi ht, ?_, rfl⟩
    rw [if_neg Bool.false_ne_true]
    omega

/-- Settles O40: the conditions that hold in every flag state and in none. -/
theorem branchAlwaysAndNever : Obligations.BranchAlwaysAndNever :=
  fun _ s => ⟨exec_of_taken rfl (taken_al s.flags), exec_of_not_taken rfl (taken_nv s.flags)⟩

/-- Settles O41: the conditions on C and Z, and the two outcomes of a branch. -/
theorem unsignedBranches : Obligations.UnsignedBranches := fun _ s =>
  ⟨exec_of_taken_iff rfl (taken_hi_iff s.flags), exec_of_taken_iff rfl (taken_ls_iff s.flags),
    exec_of_taken_iff rfl (taken_cc_iff s.flags), exec_of_taken_iff rfl (taken_cs_iff s.flags)⟩

/-- Settles O42: the conditions on one of Z, V and N, and the two outcomes of a branch. -/
theorem singleFlagBranches : Obligations.SingleFlagBranches := fun _ s =>
  ⟨exec_of_taken_iff rfl (taken_ne_iff s.flags), exec_of_taken_iff rfl (taken_eq_iff s.flags),
    exec_of_taken_iff rfl (taken_vc_iff s.flags), exec_of_taken_iff rfl (taken_vs_iff s.flags),
    exec_of_taken_iff rfl (taken_pl_iff s.flags), exec_of_taken_iff rfl (taken_mi_iff s.flags)⟩

/-- Settles O43: the conditions on N, V and Z, and the two outcomes of a branch. -/
theorem signedBranches : Obligations.SignedBranches := fun _ s =>
  ⟨exec_of_taken_iff rfl (taken_ge_iff s.flags), exec_of_taken_iff rfl (taken_lt_iff s.flags),
    exec_of_taken_iff rfl (taken_gt_iff s.flags), exec_of_taken_iff rfl (taken_le_iff s.flags)⟩

/-- Settles O44: the number with bit 0 set is that of the complement. -/
theorem oddConditionsComplementEven : Obligations.OddConditionsComplementEven := by
  intro k f
  rw [Cond.ofBits_append_one, taken_complement]

end Sys2Proof.Proofs
end

section
/-! What a word does, by its opcode and with the two formats as one: operands A and B and the write of SC depend on the
type bit, everything after them on the opcode alone (spec/40_shifter_operands.md R70, R76, R77). -/

namespace Sys2Proof.Machine

open Sys2Proof

/-- Operand A in either format (R70). -/
def operandA (t2 : Bool) (srcA : Reg) (sh : ShiftCode) (s : State) : Word :=
  bif t2 then operandAImm srcA s else operandAReg srcA sh s

/-- Operand B in either format (R70). -/
def operandB (t2 : Bool) (srcB : Reg) (imm : Word) (s : State) : Word := bif t2 then imm else operandBReg srcB s

/-- The state on which the effect of an opcode other than the branch's is applied: type 1 has written SC (R76, R77). -/
def scWritten (t2 : Bool) (srcA : Reg) (sh : ShiftCode) (s : State) : State := bif t2 then s else runShifter srcA sh s

/-- The effect of an opcode on operands A and B, with the C before the instruction and the carry that the logic
instructions put into C (R102). -/
def opcodeEffect (op : Opcode) (ldcc : Bool) (dst : Reg) (A B : Word) (c logicCarry : Bool) (cond : Cond)
    (off : Word) : Effect :=
  match op with
  | .add => .arith ldcc dst (adder A B false) false
  | .adc => .arith ldcc dst (adder A B c) false
  | .sub => .arith ldcc dst (adder A (~~~B) true) true
  | .sbc => .arith ldcc dst (adder A (~~~B) !c) true
  | .and => .logic ldcc dst (A &&& B) logicCarry
  | .or => .logic ldcc dst (A ||| B) logicCarry
  | .loadStore => bif ldcc then .store (A + B) dst else .load (A + B) dst
  | .branch => .branch cond off

section
variable (t2 : Bool) (a b : Reg) (sh : ShiftCode) (s : State)

theorem readReg_scWritten (q : Reg) : (scWritten t2 a sh s).readReg q = s.readReg q := by
  cases t2 with
  | true => rfl
  | false => exact runShifter_readReg a q sh s

/-- The carry of a logic instruction: type 1 has just written it to SC, for type 2 it is 0 (R102). -/
theorem logicCarry_eq : (!t2 && (scWritten t2 a sh s).sc) = (!t2 && shifterCarryReg a sh s) := by cases t2 <;> rfl

variable (op : Opcode) (l : Bool) (d : Reg) (imm : Word) (cond : Cond) (off : Word)

theorem effect_decodeFields : effect (decodeFields op t2 l d a b sh imm cond off) s =
    opcodeEffect op l d (operandA t2 a sh s) (operandB t2 b imm s) s.flags.c (!t2 && (scWritten t2 a sh s).sc)
      cond off := by
  rw [logicCarry_eq]
  cases op with
  | add | adc | sub | sbc | and | or => cases t2 <;> rfl
  | loadStore => cases t2 <;> cases l <;> rfl
  | branch => cases cond <;> rfl

theorem afterShifter_decodeFields {op : Opcode} (hop : op ≠ .branch) :
    afterShifter (decodeFields op t2 l d a b sh imm cond off) s = scWritten t2 a sh s := by
  cases op with
  | add | adc | sub | sbc | and | or => cases t2 <;> rfl
  | loadStore => cases t2 <;> cases l <;> rfl
  | branch => exact absurd rfl hop

theorem afterShifter_decodeFields_branch :
    afterShifter (decodeFields .branch t2 l d a b sh imm cond off) s = s := by
  cases cond <;> rfl

end

end Sys2Proof.Machine
end

section
/-! Each word of R151's function on numbers (spec/45_step.md) is an operation of the model: a lemma per word, its
numbers given as those of the model's words, registers, codes and flags. -/

namespace Sys2Proof.Machine

open Sys2Proof Sys2Proof.Stated

/-! ### The fields of a word -/

theorem field_toNat (w : Word) (hi lo : Nat) : field w.toNat hi lo = (w.extractLsb' lo (hi - lo + 1)).toNat := by
  rw [BitVec.extractLsb'_toNat, Nat.shiftRight_eq_div_pow, field]

section
variable (w : Word)

theorem field_opcode : field w.toNat 15 13 = (Opcode.ofBits (opcodeBits w)).bits.toNat := by
  rw [Opcode.bits_ofBits]; exact field_toNat w 15 13
theorem field_dst : field w.toNat 10 8 = (Reg.ofBits (dstBits w)).bits.toNat := by
  rw [Reg.bits_ofBits]; exact field_toNat w 10 8
theorem field_srcA : field w.toNat 7 5 = (Reg.ofBits (srcABits w)).bits.toNat := by
  rw [Reg.bits_ofBits]; exact field_toNat w 7 5
theorem field_srcB : field w.toNat 4 2 = (Reg.ofBits (srcBBits w)).bits.toNat := by
  rw [Reg.bits_ofBits]; exact field_toNat w 4 2
theorem field_sh : field w.toNat 1 0 = (ShiftCode.ofBits (shBits w)).bits.toNat := by
  rw [ShiftCode.bits_ofBits]; exact field_toNat w 1 0
theorem field_cond : field w.toNat 11 8 = (Cond.ofBits (condBits w)).bits.toNat := by
  rw [Cond.bits_ofBits]; exact field_toNat w 11 8

theorem field_bit (k : Nat) : field w.toNat k k = (w.getLsbD k).toNat := by
  rw [field, Nat.sub_self, BitVec.getLsbD, Nat.toNat_testBit]
  rfl
theorem field_ldcc : (field w.toNat 11 11 == 1) = ldccBit w := by
  rw [field_bit, ldccBit]
  cases w.getLsbD 11 <;> rfl
theorem field_type : (field w.toNat 12 12 == 0) = !typeBit w := by
  rw [field_bit, typeBit]
  cases w.getLsbD 12 <;> rfl

theorem sext16_toNat_imm5 : ∀ f : BitVec 5, sext16 f.toNat 5 = (sext5 f).toNat := by decide
theorem sext16_toNat_off8 : ∀ f : BitVec 8, sext16 f.toNat 8 = (sext8 f).toNat := by decide

theorem sext16_field_imm5 : sext16 (field w.toNat 4 0) 5 = (sext5 (imm5Bits w)).toNat := by
  rw [field_toNat]; exact sext16_toNat_imm5 (imm5Bits w)
theorem sext16_field_off8 : sext16 (field w.toNat 7 0) 8 = (sext8 (off8Bits w)).toNat := by
  rw [field_toNat]; exact sext16_toNat_off8 (off8Bits w)

end

/-! ### Words -/

theorem ofNat_toNat_word (v : Word) : BitVec.ofNat 16 v.toNat = v := by rw [BitVec.ofNat_toNat, BitVec.setWidth_eq]

theorem ofNat_toNat_add (a b : Word) : BitVec.ofNat 16 (a.toNat + b.toNat) = a + b := by
  rw [BitVec.ofNat_add, ofNat_toNat_word, ofNat_toNat_word]

theorem toNat_complement (v : Word) : 65535 - v.toNat = (~~~v).toNat := (BitVec.toNat_not (x := v)).symm

theorem toNat_beq_zero (v : Word) : (v.toNat == 0) = (v == 0) :=
  decide_eq_decide.mpr (BitVec.toNat_inj (y := 0))

theorem toNat_div_sign (v : Word) : v.toNat / 32768 = (v.getLsbD 15).toNat := by
  have hv := v.isLt
  rw [BitVec.getLsbD, Nat.toNat_testBit]
  omega

theorem toNat_div_sign_beq_one (v : Word) : (v.toNat / 32768 == 1) = v.getLsbD 15 := by
  rw [toNat_div_sign]
  cases v.getLsbD 15 <;> rfl

/-! ### The slots, the shifter and the conditions -/

theorem slot_bits (r : Reg) (s : State) : slot s r.bits.toNat = (s.readReg r).toNat := by cases r <;> rfl

theorem withSlot_bits (r : Reg) (v : Word) (s : State) : withSlot s r.bits.toNat v.toNat = s.writeReg r v := by
  have hwrite : withSlot s r.bits.toNat v.toNat = s.writeReg r (BitVec.ofNat 16 v.toNat) := by cases r <;> rfl
  rw [hwrite, ofNat_toNat_word]

/-- ASR puts the sign bit in, ROR the bit shifted out, where RRC puts in the carry. -/
theorem shiftedNumber_bits (v : Word) (sh : ShiftCode) (c : Bool) :
    shiftedNumber v.toNat sh.bits.toNat c.toNat = (shiftOut v sh c).toNat := by
  have hput (b : Bool) {n : Nat} (hn : n = b.toNat) : v.toNat / 2 + 32768 * n = (shiftOut v .rrc b).toNat := by
    rw [shiftOut_rrc_toNat]
    omega
  cases sh with
  | none => rfl
  | asr => exact hput (v.getLsbD 15) (toNat_div_sign v)
  | ror => exact hput (v.getLsbD 0) (shiftCarry_toNat (sh := .ror) nofun v).symm
  | rrc => exact hput c rfl

theorem shiftCarry_bits (v : Word) (sh : ShiftCode) :
    (sh.bits.toNat != 0 && v.toNat % 2 == 1) = shiftCarry v sh := by
  rw [shiftCarry_eq, BitVec.getLsbD, Nat.testBit_zero]
  cases sh <;> rfl

theorem takenNumber_bits (cond : Cond) (f : Flags) : takenNumber cond.bits.toNat f.c f.v f.z f.n = taken cond f := by
  obtain ⟨c, v, z, n⟩ := f
  revert c v z n
  cases cond <;> decide

/-! ### The operands, in either format -/

section
variable (t2 : Bool) (a b : Reg) (sh : ShiftCode) (imm : Word) (s : State)

theorem operandA_number :
    (bif !t2 then shiftedNumber (s.readReg a).toNat sh.bits.toNat s.flags.c.toNat else (s.readReg a).toNat) =
      (operandA t2 a sh s).toNat := by
  cases t2 with
  | true => rfl
  | false => exact shiftedNumber_bits ..

theorem operandB_number : (bif !t2 then (s.readReg b).toNat else imm.toNat) = (operandB t2 b imm s).toNat := by
  cases t2 <;> rfl

theorem scWritten_number :
    (bif !t2 then { s with sc := sh.bits.toNat != 0 && (s.readReg a).toNat % 2 == 1 } else s) =
      scWritten t2 a sh s := by
  cases t2 with
  | true => rfl
  | false => exact congrArg (s.setSc ·) (shiftCarry_bits ..)

end

/-! ### The ends of the instructions -/

/-- The sign rule of R85 on the quotients that are the sign bits. -/
theorem overflow_number (a b : Word) (cin : Bool) :
    (a.toNat / 32768 == b.toNat / 32768 && (adder a b cin).sum.toNat / 32768 != a.toNat / 32768) =
      (adder a b cin).overflow := by
  rw [Bool.eq_iff_iff, adder_overflow_iff, toNat_div_sign, toNat_div_sign, toNat_div_sign]
  generalize a.getLsbD 15 = x, b.getLsbD 15 = y, (adder a b cin).sum.getLsbD 15 = z
  revert x y z
  decide

section
variable (l : Bool) (d : Reg) (s : State)

theorem afterAdd_bits (a b : Word) {cin inv : Bool} {n : Nat} (hn : n = cin.toNat) :
    afterAdd l d.bits.toNat a.toNat b.toNat n inv s = finishArith l d (adder a b cin) inv s := by
  rw [hn, afterAdd, ← adder_sum_toNat, overflow_number, toNat_beq_zero, toNat_div_sign_beq_one, withSlot_bits]
  cases l <;> rfl

theorem afterLogic_bits (res : Word) (carry : Bool) :
    afterLogic l d.bits.toNat res.toNat carry s = finishLogic l d res carry s := by
  rw [afterLogic, toNat_beq_zero, toNat_div_sign_beq_one, withSlot_bits]
  cases l <;> rfl

end

end Sys2Proof.Machine
end

section
/-! The step is R151's function (spec/45_step.md R145, R151). -/

namespace Sys2Proof.Machine

open Sys2Proof Sys2Proof.Stated

/-- The increment of the pc on numbers (R145). -/
theorem State.advancePc_eq (s : State) : { s with pc := BitVec.ofNat 16 (s.pc.toNat + 1) } = s.advancePc :=
  congrArg (s.setPc ·) (ofNat_toNat_add s.pc 1)

/-- R151's function on the number of a word applies the effect of the instruction that the word decodes to: its fields,
operands and SC are the decoder's, the model's and the shifter's, and then each opcode has the end that its effect
names. -/
theorem wholeExec_eq_effect (w : Word) (s : State) :
    wholeExec w.toNat s = (effect (decode w) s).apply (afterShifter (decode w) s) := by
  rw [decode, effect_decodeFields]
  simp only [wholeExec, field_opcode, field_dst, field_srcA, field_srcB, field_sh, field_cond, field_ldcc, field_type,
    sext16_field_imm5, sext16_field_off8, slot_bits, operandA_number, operandB_number, scWritten_number,
    takenNumber_bits, ofNat_toNat_add, ofNat_toNat_word, toNat_complement, withSlot_bits, ← toNat_not_bool,
    ← BitVec.toNat_and, ← BitVec.toNat_or]
  cases Opcode.ofBits (opcodeBits w) with
  | add | adc | sub | sbc =>
    rw [afterShifter_decodeFields (hop := Opcode.noConfusion)]
    exact afterAdd_bits (hn := rfl) ..
  | and | or =>
    rw [afterShifter_decodeFields (hop := Opcode.noConfusion)]
    exact afterLogic_bits ..
  | loadStore =>
    rw [afterShifter_decodeFields (hop := Opcode.noConfusion)]
    cases ldccBit w with
    | false => rfl
    | true => rw [← readReg_scWritten]; rfl
  | branch =>
    rw [afterShifter_decodeFields_branch]
    rfl

end Sys2Proof.Machine
end

section
/-! The words at the pc by which a state stands still, and that a run has at most one end state (spec/45_step.md
R149). -/

namespace Sys2Proof.Safety

open Sys2Proof Sys2Proof.Machine

/-- A step that changes nothing but the pc, by the increment and then -1, leaves the state. -/
theorem still_of_step_eq_setPc {s : State} (h : step s = .next (s.setPc (s.pc + 1 + 0xFFFF))) : Still s := by
  have hpc : s.pc + 1 + 0xFFFF = s.pc := by
    rw [BitVec.add_assoc]
    exact BitVec.add_zero s.pc
  rw [hpc] at h
  exact still_of_fixed s h

/-- Both words of `BAL -1` decode to it, and it is taken in every state. -/
theorem still_of_ended {s : State} (h : Ended s) : Still s := by
  have hdecode : decode s.fetchWord = .bal 0xFFFF := by
    rcases h with h | h
    · exact (congrArg decode h).trans (by decide)
    · exact (congrArg decode h).trans (by decide)
  apply still_of_step_eq_setPc
  rw [step, hdecode, exec_of_taken rfl (taken_al _)]
  rfl

/-- `ADD R7, R7, #-1` writes no flag, and to the pc the incremented pc less 1. -/
theorem still_of_add_pc_neg_one {s : State} (h : s.memRead s.pc = 0x17FF) : Still s := by
  have hdecode : decode s.fetchWord = .addImm false .r7 .r7 0xFFFF := (congrArg decode h).trans (by decide)
  have hsum : (adder (s.pc + 1) 0xFFFF false).sum = s.pc + 1 + 0xFFFF := ofNat_toNat_add (s.pc + 1) 0xFFFF
  apply still_of_step_eq_setPc
  rw [step, hdecode, ← hsum]
  rfl

/-- A run that has come to a state which nothing changes stays in it. -/
theorem eq_of_run_of_still {m n : Nat} {s t u : State} (hle : m ≤ n) (hm : run m s = .next t) (ht : Still t)
    (hn : run n s = .next u) : t = u := by
  obtain ⟨k, rfl⟩ := Nat.exists_eq_add_of_le hle
  rw [run_add_of_next m k s t hm, ht k] at hn
  exact Host.Outcome.next.inj hn

theorem endsIn_unique {s t u : State} (ht : EndsIn s t) (hu : EndsIn s u) : t = u := by
  obtain ⟨⟨m, hm⟩, ht⟩ := ht
  obtain ⟨⟨n, hn⟩, hu⟩ := hu
  rcases Nat.le_total m n with hle | hle
  · exact eq_of_run_of_still hle hm (still_of_ended ht) hn
  · exact (eq_of_run_of_still hle hn (still_of_ended hu) hm).symm

end Sys2Proof.Safety
end

section
/-! The statements about the step (spec/45_step.md). -/

namespace Sys2Proof.Proofs

open Sys2Proof Sys2Proof.Machine Sys2Proof.Stated

/-- Settles O49: both sides apply the effect of the word at the pc (`wholeExec_eq_effect`). -/
theorem stepIsTheWholeMachine : Obligations.StepIsTheWholeMachine := by
  intro s
  rw [wholeStep, State.advancePc_eq, wholeExec_eq_effect]
  exact step_eq_effect s

/-- Settles O60: a `BAL -1` leaves the state, so a run stays in the first end state that it reaches; at the other word
it stays too, and that word is no `BAL -1`. -/
theorem selfBranchEndsTheRun : Obligations.SelfBranchEndsTheRun := by
  intro s
  refine ⟨fun h => ⟨⟨⟨0, rfl⟩, h⟩, Safety.still_of_ended h⟩, fun _ _ => Safety.endsIn_unique, fun h => ?_⟩
  have hstill := Safety.still_of_add_pc_neg_one h
  refine ⟨hstill, ?_⟩
  rintro t ⟨⟨n, hn⟩, hended⟩
  obtain rfl := Safety.eq_of_run_of_still n.zero_le rfl hstill hn
  rw [Safety.Ended, h] at hended
  exact absurd hended (by decide)

/-- Settles O11, a case of the clock edge per clause. -/
theorem resetWinsAtTheClockEdge : Obligations.ResetWinsAtTheClockEdge :=
  fun _ _ => ⟨fun _ => rfl, rfl, rfl⟩

/-- Settles O47: the increment on numbers is `State.advancePc`. -/
theorem stepRunsTheDecodedInstruction : Obligations.StepRunsTheDecodedInstruction := by
  rintro s _ rfl
  rw [State.advancePc_eq]
  rfl

end Sys2Proof.Proofs
end

section
/-! That every run completes, and what an instruction can do to the pc (spec/60_exceptions.md R160, R163). -/

namespace Sys2Proof.Safety

open Sys2Proof Sys2Proof.Machine

/-- Each step answers a next state, from which the rest of the run goes on. -/
theorem safeFor (n : Nat) (s : State) : SafeFor n s := by
  induction n generalizing s with
  | zero => exact ⟨s, rfl⟩
  | succ n ih =>
    obtain ⟨t, ht⟩ := ih ((stepEffect s).apply (beforeEffect s))
    exact ⟨t, (run_succ_of_next n s _ (step_eq_effect s)).trans ht⟩

end Sys2Proof.Safety

namespace Sys2Proof.Machine

open Sys2Proof Sys2Proof.Stated

/-- The pc after an instruction: kept, the target of a taken branch, or the destination of the result. -/
theorem exec_pc_cases {i : Instr} {s t : State} (h : exec i s = .next t) :
    t.pc = s.pc ∨
      (∃ cond off, branchOf i = some (cond, off) ∧ taken cond s.flags = true ∧ t.pc = s.pc + off) ∨
      destination i = some .r7 := by
  cases hb : branchOf i with
  | none =>
    by_cases hd : destination i = some .r7
    · exact .inr (.inr hd)
    · exact .inl (Proofs.onlyTheDestinationIsWritten i s t .r7 hd (.inl hb) h)
  | some p =>
    obtain ⟨cond, off⟩ := p
    cases ht : taken cond s.flags with
    | true =>
      cases (exec_of_taken hb ht).symm.trans h
      exact .inr (.inl ⟨cond, off, rfl, ht, rfl⟩)
    | false =>
      cases (exec_of_not_taken hb ht).symm.trans h
      exact .inl rfl

end Sys2Proof.Machine
end

section
/-! The statements about exceptions and control flow (spec/60_exceptions.md). -/

namespace Sys2Proof.Proofs

open Sys2Proof Sys2Proof.Machine Sys2Proof.Stated

/-- Settles O48: an instruction applies its effect, whatever the state, and so does a step; a run by induction on the
number of steps (`Safety.safeFor`). -/
theorem nothingEverStops : Obligations.NothingEverStops :=
  ⟨fun i s => ⟨_, exec_eq_effect i s⟩, fun s => ⟨_, step_eq_effect s⟩, Safety.safeFor⟩

/-- Settles O55: what an instruction can do to the pc (`exec_pc_cases`), from the pc that the step has incremented. -/
theorem controlFlowHasThreeSources : Obligations.ControlFlowHasThreeSources := by
  intro s t h
  exact exec_pc_cases (i := decode s.fetchWord) (s := s.advancePc) h

end Sys2Proof.Proofs
end

section
/-! A loaded image: its first 65536 words, from address 0 (spec/70_reset_and_hazards.md R183). -/

namespace Sys2Proof.Machine

open Sys2Proof

theorem Memory.wf_ofWords (ws : List Word) : (Memory.ofWords ws).wf :=
  Memory.wf_ofWordsFrom 0 _ (by rw [Nat.zero_add]; exact ws.length_take_le _)

/-- Every address of a loaded image: its line, and the unlisted word past its last line. -/
theorem Memory.read_ofWords (ws : List Word) (a : Word) :
    (Memory.ofWords ws).read a = ws.getD a.toNat Config.unlistedWord := by
  have ha : a.toNat < Config.memWords := a.isLt
  rw [Memory.ofWords, Memory.read, Memory.readAt_ofWordsFrom, if_pos (Nat.zero_le _), Nat.sub_zero,
    List.getD_eq_getElem?_getD, List.getElem?_take_of_lt ha, ← List.getD_eq_getElem?_getD]

end Sys2Proof.Machine
end

section
/-! The reset event (spec/70_reset_and_hazards.md R180, R181): what it sets, and the frame. -/

namespace Sys2Proof.Machine

open Sys2Proof

@[simp] theorem State.applyReset_pc (o : Config.ResetValues) (s : State) : (s.applyReset o).pc = Config.resetPc := rfl
@[simp] theorem State.applyReset_mem (o : Config.ResetValues) (s : State) : (s.applyReset o).mem = s.mem := rfl
@[simp] theorem State.keptValues_applyReset (o : Config.ResetValues) (s : State) :
    (s.applyReset o).keptValues = o := rfl

@[simp] theorem State.memRead_applyReset (o : Config.ResetValues) (a : Word) (s : State) :
    (s.applyReset o).memRead a = s.memRead a :=
  State.memRead_congr _ _ (State.applyReset_mem o s) a

/-- The variant of the reset event that R181 allows: it writes the pc alone. -/
theorem State.applyReset_keptValues (s : State) : s.applyReset s.keptValues = s.setPc Config.resetPc := rfl

end Sys2Proof.Machine
end

section
/-! The statements about reset and the loaded image (spec/70_reset_and_hazards.md). -/

namespace Sys2Proof.Proofs

open Sys2Proof Sys2Proof.Machine

/-- Settles O7: a line below 65536 is not among the dropped ones, so its address reads as that line
(`Memory.read_ofWords`). -/
theorem imageLineGivesItsWord : Obligations.ImageLineGivesItsWord := by
  refine fun ws => ⟨Memory.wf_ofWords ws, fun k h hk => ?_⟩
  have haddr : (BitVec.ofNat 16 k).toNat = k := Nat.mod_eq_of_lt hk
  rw [Memory.read_ofWords, haddr, List.getD_eq_getElem ws _ h]

/-- Settles O9, a rule of the reset event per clause. -/
theorem resetEventSetsPcToZero : Obligations.ResetEventSetsPcToZero :=
  fun o s => ⟨State.applyReset_pc o s, fun a => State.memRead_applyReset o a s,
    State.keptValues_applyReset o s, State.applyReset_keptValues s⟩

end Sys2Proof.Proofs
end
